-- ==== Sys2Proof/Word.lean ====
section
/-! DEFINITION. The cell value: the one kind of word the machine has (spec/00_scope.md R8, R15).
The machine is decimal and its numbers are mathematical integers; no cell has a bit pattern. -/

namespace Sys2Proof

/-- `in_cell(v)` (R8): CELL_MIN = -32768 <= v <= CELL_MAX = 32767. -/
abbrev inCell (v : Int) : Prop := -32768 ≤ v ∧ v ≤ 32767

end Sys2Proof
end

