-- ==== Sys2Proof/Config.lean ====
section
/-! DEFINITION. The parameters the spec leaves to the implementation, each with the spec's default
(spec/00_scope.md R9, R13, R14). Every alternative the spec names is a value here, so that a statement over all
configurations covers all of them. -/

namespace Sys2Proof

/-- DECK_EXHAUSTED_MODE (R14, D6): what IN does past the loaded deck. -/
inductive DeckExhaustedMode where
  | fault
  | zero
deriving DecidableEq, Repr

/-- DECODE_NEG_MODE (R14, D8): what becomes of a fetched word in -99..-1. -/
inductive DecodeNegMode where
  | fault
  | halt
deriving DecidableEq, Repr

/-- SHIFT_DIV_MODE (R14, D10): how SHIFT divides a negative value that is no multiple of 10. -/
inductive ShiftDivMode where
  | undecided
  | trunc
  | floor
deriving DecidableEq, Repr

/-- The parameters of a run. The defaults are the spec's (R9, R14). -/
structure Config where
  /-- ACC_BITS (R9, D3). -/
  accBits : Nat := 16
  /-- ACC_INIT (R14, D2); `none` is NONE. -/
  accInit : Option Int := none
  /-- DECK_EXHAUSTED_MODE. -/
  deckExhausted : DeckExhaustedMode := .fault
  /-- DECODE_NEG_MODE. -/
  decodeNeg : DecodeNegMode := .fault
  /-- SHIFT_DIV_MODE. -/
  shiftDiv : ShiftDivMode := .undecided
deriving DecidableEq, Repr

/-- The parameters of the assembler (R13, R65). -/
structure AsmConfig where
  /-- VAR_KEYWORD (R65, D29): open in the spec, no default; while it is `none` every declaration is refused. -/
  varKeyword : Option (List Char) := none
  /-- VAR_CAP (R13). -/
  varCap : Nat := 9
deriving DecidableEq, Repr

end Sys2Proof
end

