-- ==== Sys2Proof/Syntax.lean ====
section
/-! DEFINITION. The instructions: one constructor per row of spec/opcode_table.json (spec/30_encoding.md R61). -/

namespace Sys2Proof

/-- One fetched word, classified. `a` is the address field (R60). HALT keeps its ignored address digits and the last
two rows keep their word, so that no word loses anything in decoding. -/
inductive Instr where
  /-- IN (R91), words 0..99. -/
  | input (a : Nat)
  /-- LOAD (R94), words 100..199. -/
  | load (a : Nat)
  /-- ADD (R95), words 200..299. -/
  | add (a : Nat)
  /-- TEST (R99), words 300..399. -/
  | test (a : Nat)
  /-- SHIFT (R96), words 400..499. -/
  | shift (a : Nat)
  /-- OUT (R92), words 500..599. -/
  | output (a : Nat)
  /-- STORE (R97), words 600..699. -/
  | store (a : Nat)
  /-- SUB (R98), words 700..799. -/
  | sub (a : Nat)
  /-- JUMP (R100), words 800..899. -/
  | jump (a : Nat)
  /-- HALT (R101), words 900..999; the address field is ignored. -/
  | halt (a : Nat)
  /-- A word with no opcode in 0..9 (R102). -/
  | unrecognised (w : Int)
  /-- A word in -99..-1 (R59 case (d)). -/
  | refusedNegative (w : Int)
deriving DecidableEq, Repr

end Sys2Proof
end

