-- ==== Sys2Proof/WellFormed.lean ====
section
/-! DEFINITION. Which terms of `Instr` stand for a word (spec/30_encoding.md R58, R59, R60). -/

namespace Sys2Proof

/-- The address field is two decimal digits (R60). -/
def addressOk (a : Nat) : Bool := decide (a ≤ 99)

/-- Exactly the terms that some cell value decodes to: address fields in 0..99 (R60), an unrecognised word in one of
the ranges of R59 (b) and (c), a refused word in the range of R59 (d). -/
def Instr.wellFormed : Instr → Bool
  | .input a => addressOk a
  | .load a => addressOk a
  | .add a => addressOk a
  | .test a => addressOk a
  | .shift a => addressOk a
  | .output a => addressOk a
  | .store a => addressOk a
  | .sub a => addressOk a
  | .jump a => addressOk a
  | .halt a => addressOk a
  | .unrecognised w => decide ((1000 ≤ w ∧ w ≤ 32767) ∨ (-32768 ≤ w ∧ w ≤ -100))
  | .refusedNegative w => decide (-99 ≤ w ∧ w ≤ -1)

end Sys2Proof
end

