-- ==== Sys2Proof/Decode.lean ====
section
/-! DEFINITION. The decoder, total on every integer and rejecting by name, and the encoder
(spec/30_encoding.md R57 to R64). -/

namespace Sys2Proof

/-- Why the decoder gives no instruction. -/
inductive DecodeReject where
  /-- The integer is no cell value (R8), so R59 says nothing about it. -/
  | notACellValue (w : Int)
deriving DecidableEq, Repr

/-- `op = w div 100` for w >= 0 (R58). -/
def opcodeField (w : Nat) : Nat := w / 100

/-- `a = w mod 100` for w >= 0 (R58). -/
def addressField (w : Nat) : Nat := w % 100

/-- The opcode map (R61): the instruction of a word `w` with fields `op` and `a`; an opcode above 9 is unrecognised
(R58). -/
def decodeFields (op a w : Nat) : Instr :=
  match op with
  | 0 => .input a
  | 1 => .load a
  | 2 => .add a
  | 3 => .test a
  | 4 => .shift a
  | 5 => .output a
  | 6 => .store a
  | 7 => .sub a
  | 8 => .jump a
  | 9 => .halt a
  | _ => .unrecognised (w : Int)

/-- The instruction of a word w >= 0 (R58, R61). -/
def decodeNonneg (w : Nat) : Instr := decodeFields (opcodeField w) (addressField w) w

/-- The classification of R59. DECODE_NEG_MODE plays its part in the meaning of `refusedNegative` (R82). -/
def decode (w : Int) : Except DecodeReject Instr :=
  if ¬ inCell w then .error (.notACellValue w)
  else if 0 ≤ w then .ok (decodeNonneg w.toNat)
  else if w ≤ -100 then .ok (.unrecognised w)
  else .ok (.refusedNegative w)

/-- `encode(op, a) = op*100 + a` (R62). -/
def encodeFields (op a : Nat) : Int := ((op * 100 + a : Nat) : Int)

/-- The word of an instruction (R61, R62). -/
def encode : Instr → Int
  | .input a => encodeFields 0 a
  | .load a => encodeFields 1 a
  | .add a => encodeFields 2 a
  | .test a => encodeFields 3 a
  | .shift a => encodeFields 4 a
  | .output a => encodeFields 5 a
  | .store a => encodeFields 6 a
  | .sub a => encodeFields 7 a
  | .jump a => encodeFields 8 a
  | .halt a => encodeFields 9 a
  | .unrecognised w => w
  | .refusedNegative w => w

/-- The cell value that sixteen bits, bit 0 the least significant, stand for: two's complement.
PRESUMED (log entry 5): the spec gives a cell no bits (R8); only the two functions the host names use this reading. -/
def cellOfBits (w : Nat) : Int :=
  if w % 65536 < 32768 then ((w % 65536 : Nat) : Int) else ((w % 65536 : Nat) : Int) - 65536

/-- The instruction the decoder reads from one cell given as bits; bits above the sixteenth are no part of a cell. -/
def decodeTableWord (_nbits w : Nat) : Option Instr :=
  if w < 65536 then
    match decode (cellOfBits w) with
    | .ok i => some i
    | .error _ => none
  else none

end Sys2Proof
end

