-- ==== Sys2Proof/Machine/State.lean ====
section
/-! DEFINITION. The state of the engine, all of it (spec/10_state.md R19 to R36), the reasons a step can end otherwise
than in a next state, and the state after reset. -/

namespace Sys2Proof.Machine

/-- Memory as (address, cell value) pairs: addresses strictly rising, no entry equal to what an unlisted address reads
as (`unlisted`), so that equal memories are equal data. The 100 cells of R20. -/
abbrev Memory := List (Nat × Int)

/-- `run_state` (R28). -/
inductive RunState where
  | running
  | halted
  | faulted
deriving DecidableEq, Repr

/-- `halt_cause` (R29). -/
inductive HaltCause where
  | none
  | haltInstr
  | unknownOpcode
  | pcOverflow
deriving DecidableEq, Repr

/-- `fault_code` (R30). -/
inductive FaultCode where
  | none
  | deckExhausted
  | accUnwritten
  | accOverflow
  | cellRange
  | negativeWord
  | shiftCodeRange
  | shiftRounding
  | addressRange
deriving DecidableEq, Repr

/-- `raise <Fault>(info)` (R17) with the information of R106's table. The information is not stored in the state. -/
inductive Raise where
  /-- IN with `cursor >= DECK_LEN` in mode FAULT (R41). -/
  | deckExhausted (cursor : Nat)
  /-- A read of `acc` while it is NONE, at this pc (R107). -/
  | accUnwritten (pc : Nat)
  /-- An exact result or SHIFT product outside the accumulator range (R93). -/
  | accOverflow (value : Int)
  /-- MemWrite of a value outside the cell range (R39). -/
  | cellRange (address : Nat) (value : Int)
  /-- A fetched word in -99..-1 in mode FAULT (R82). -/
  | negativeWord (word : Int)
  /-- A SHIFT code outside 0..99 (R96). -/
  | shiftCodeRange (address : Nat) (code : Int)
  /-- A SHIFT division of a negative non-multiple of 10 in mode UNDECIDED (R96). -/
  | shiftRounding (value : Int)
  /-- MemRead or MemWrite outside 0..99 (R38, R39). -/
  | addressRange (address : Nat)
deriving DecidableEq, Repr

/-- `ir` (R27): NONE, an opcode 0..9, or UNKNOWN. -/
inductive Ir where
  | none
  | opcode (op : Fin 10)
  | unknown
deriving DecidableEq, Repr

/-- The state of R19, and the parameters of the run. -/
structure State where
  /-- The parameters of the run (R14, R19), the model's own field (log entry 1); no step changes them. -/
  cfg : Config
  /-- The memory image (R20). -/
  mem : Memory
  /-- The accumulator (R22); `none` is the spec's value NONE. -/
  acc : Option Int
  /-- The program counter (R24), 0..100. -/
  pc : Nat
  /-- The instruction register (R27). -/
  ir : Ir
  /-- RUNNING, HALTED or FAULTED (R28). -/
  runState : RunState
  /-- The halt cause (R29). -/
  haltCause : HaltCause
  /-- The fault code (R30). -/
  faultCode : FaultCode
  /-- The loaded deck (R33); DECK_LEN is its length. -/
  deck : List Int
  /-- The deck cursor (R34). -/
  cursor : Nat
  /-- The output stream (R35), oldest line first. -/
  out : List Int
deriving DecidableEq, Repr

/-- Why there is no step. -/
inductive Fault where
  /-- Raised by `step` on a HALTED engine: it takes no step (R80). Safe: nothing is claimed to happen. -/
  | runHalted
  /-- Raised by `step` on a FAULTED engine: it takes no step (R80, R110). Safe: nothing is claimed to happen. -/
  | runFaulted
deriving DecidableEq, Repr

/-- Why the model gives no meaning. -/
inductive Refusal where
  /-- Answered by an arm of `exec` whose instruction has no meaning yet. Safe. No arm uses it now. -/
  | notModelled (mnemonic : String)
  /-- Answered by `step` when the fetched value is no cell value; the host has then broken R126, and R131 says the
  definition does not cover such a run. Safe. -/
  | notACellValue (w : Int)
deriving DecidableEq, Repr

/-- The machine right after reset (R123) with the default parameters (R14), the all-zero image and the empty deck
(DESIGN CHOICE, log entries 2 and 3: both come from the host). Memory lists nothing: an unlisted cell reads as reset
leaves it, cell 0 as the seeded 1 (R127). -/
def State.reset : State where
  cfg := {}
  mem := []
  acc := none
  pc := 10
  ir := .none
  runState := .running
  haltCause := .none
  faultCode := .none
  deck := []
  cursor := 0
  out := []

end Sys2Proof.Machine
end

