-- ==== Sys2Proof/Machine/Ops.lean ====
section
/-! DEFINITION. The named operations over memory, deck, output and registers (spec/20_memory.md R37 to R42), taking a
fault (spec/60_exceptions.md R110, R111) and completing a step (spec/40_cycle.md R84, R85). -/

namespace Sys2Proof.Machine

/-! ### Memory -/

/-- What a cell that memory does not list reads as: the reset contents, 1 in cell 0 (R127) and 0 elsewhere (R78). -/
def unlisted (a : Nat) : Int := if a = 0 then 1 else 0

/-- The value of one cell. -/
def Memory.read : Memory → Nat → Int
  | [], a => unlisted a
  | (b, v) :: m, a => if a = b then v else Memory.read m a

/-- Memory with cell `a` holding `v`, in canonical form. -/
def Memory.write : Memory → Nat → Int → Memory
  | [], a, v => if v = unlisted a then [] else [(a, v)]
  | (b, u) :: m, a, v =>
    if a < b then (if v = unlisted a then (b, u) :: m else (a, v) :: (b, u) :: m)
    else if a = b then (if v = unlisted a then m else (a, v) :: m)
    else (b, u) :: Memory.write m a v

/-- One listed cell is one of the 100 (R7), holds a cell value (R8), and is listed for a reason. -/
abbrev Memory.entryOk (c : Nat × Int) : Prop := c.1 ≤ 99 ∧ inCell c.2 ∧ c.2 ≠ unlisted c.1

/-- The canonical form: addresses strictly rising, every entry in order. -/
abbrev Memory.wf (m : Memory) : Prop := m.Pairwise (fun c d => c.1 < d.1) ∧ ∀ c ∈ m, Memory.entryOk c

/-- The memory whose cells from address `a` on hold `vs` and whose other cells are unlisted (the load of R126). -/
def Memory.ofCells : Nat → List Int → Memory
  | _, [] => []
  | a, v :: vs => if v = unlisted a then Memory.ofCells (a + 1) vs else (a, v) :: Memory.ofCells (a + 1) vs

/-! ### Writing one piece of state -/

/-- `acc <- v`. -/
def State.setAcc (s : State) (v : Int) : State := { s with acc := some v }

/-- Another memory. -/
def State.setMem (s : State) (m : Memory) : State := { s with mem := m }

/-- `cursor <- cursor + 1`. -/
def State.advanceCursor (s : State) : State := { s with cursor := s.cursor + 1 }

/-- OutEmit (R42): `out <- out ++ [v]`. -/
def State.outEmit (s : State) (v : Int) : State := { s with out := s.out ++ [v] }

/-- `ir <- op; pc <- p`, the two writes every completed step makes (R86). -/
def State.retire (s : State) (op : Ir) (p : Nat) : State := { s with ir := op, pc := p }

/-- `run_state <- HALTED; halt_cause <- k` (R85). -/
def State.enterHalted (s : State) (k : HaltCause) : State := { s with runState := .halted, haltCause := k }

/-- `run_state <- FAULTED; fault_code <- f` (R110). -/
def State.enterFaulted (s : State) (f : FaultCode) : State := { s with runState := .faulted, faultCode := f }

/-! ### The primitives of R17 -/

/-- MemRead (R38). -/
def memRead (s : State) (a : Nat) : Except Raise Int :=
  if a ≤ 99 then .ok (s.mem.read a) else .error (.addressRange a)

/-- MemWrite (R39): the address guard, then the range check, then the whole cell. -/
def memWrite (s : State) (a : Nat) (v : Int) : Except Raise State :=
  if a ≤ 99 then
    if inCell v then .ok (s.setMem (s.mem.write a v)) else .error (.cellRange a v)
  else .error (.addressRange a)

/-- DeckRead (R41): the next value and the state with the cursor advanced; past the deck, as DECK_EXHAUSTED_MODE says. -/
def deckRead (s : State) : Except Raise (Int × State) :=
  match s.deck[s.cursor]? with
  | some v => .ok (v, s.advanceCursor)
  | none =>
    match s.cfg.deckExhausted with
    | .fault => .error (.deckExhausted s.cursor)
    | .zero => .ok (0, s.advanceCursor)

/-- A read of the accumulator (R23, R107). -/
def accRead (s : State) : Except Raise Int :=
  match s.acc with
  | some x => .ok x
  | none => .error (.accUnwritten s.pc)

/-! ### Status numbers -/

/-- The numeric codes of R29. -/
def HaltCause.number : HaltCause → Nat
  | .none => 0
  | .haltInstr => 1
  | .unknownOpcode => 2
  | .pcOverflow => 3

/-- The numeric codes of R30. -/
def FaultCode.number : FaultCode → Nat
  | .none => 0
  | .deckExhausted => 1
  | .accUnwritten => 2
  | .accOverflow => 3
  | .cellRange => 4
  | .negativeWord => 5
  | .shiftCodeRange => 6
  | .shiftRounding => 7
  | .addressRange => 8

/-- The code a raise writes to `fault_code` (R106). -/
def Raise.code : Raise → FaultCode
  | .deckExhausted _ => .deckExhausted
  | .accUnwritten _ => .accUnwritten
  | .accOverflow _ => .accOverflow
  | .cellRange _ _ => .cellRange
  | .negativeWord _ => .negativeWord
  | .shiftCodeRange _ _ => .shiftCodeRange
  | .shiftRounding _ => .shiftRounding
  | .addressRange _ => .addressRange

/-! ### Ending a step -/

/-- TAKING A FAULT (R110, R111): from the state before the step, exactly `run_state` and `fault_code` change; nothing is
saved and pc stays at the faulting instruction. There is no return from it (R115). -/
def takeFault (s : State) (r : Raise) : State := s.enterFaulted r.code

/-- What an effect hands to the rest of its step (R86): the state with its writes of acc, mem, cursor and out, the
branch target `t` if it set one, and the halt cause `k` (`none` where it requests no halt). -/
structure Effected where
  st : State
  target : Option Nat := none
  halt : HaltCause := .none
deriving DecidableEq, Repr

/-- `pc <- (if the effect set a branch target t: t else pc + 1)` (R84). -/
def nextPc (e : Effected) : Nat :=
  match e.target with
  | some t => t
  | none => e.st.pc + 1

/-- The halting check (R85), after the pc update: the effect's own cause outranks PC_OVERFLOW. -/
def haltingCheck (k : HaltCause) (s : State) : State :=
  match k with
  | .none => if 100 ≤ s.pc then s.enterHalted .pcOverflow else s
  | .haltInstr => s.enterHalted .haltInstr
  | .unknownOpcode => s.enterHalted .unknownOpcode
  | .pcOverflow => s.enterHalted .pcOverflow

/-- The end of a step whose effect raised nothing (R84 to R86). -/
def completeStep (op : Ir) (e : Effected) : State := haltingCheck e.halt (e.st.retire op (nextPc e))

/-- The end of every step after decoding: a raise takes the fault from the state BEFORE the effect's writes (R111);
otherwise the step completes. -/
def finishStep (op : Ir) (s : State) (r : Except Raise Effected) : Host.Outcome State Fault Refusal :=
  match r with
  | .ok e => .next (completeStep op e)
  | .error f => .next (takeFault s f)

/-! ### Fetching -/

/-- Fetch (R81): the word at `mem[pc]`. -/
def fetch (s : State) : Except Raise Int := memRead s s.pc

end Sys2Proof.Machine
end

