-- ==== Sys2Proof/Machine/Operands.lean ====
section
/-! DEFINITION. The accumulator range and the arithmetic of the operands: exact integers, checked afterwards
(spec/42_accumulator.md R93), the shift code and the two divisions by ten (R96, spec/00_scope.md R15). -/

namespace Sys2Proof.Machine

/-- ACC_MAX = 2^(ACC_BITS-1) - 1 (R9). -/
def accMax (c : Config) : Int := ((2 ^ (c.accBits - 1) : Nat) : Int) - 1

/-- ACC_MIN = -2^(ACC_BITS-1) (R9). -/
def accMin (c : Config) : Int := -((2 ^ (c.accBits - 1) : Nat) : Int)

/-- `in_acc(v)` (R9). -/
abbrev inAcc (c : Config) (v : Int) : Prop := accMin c ≤ v ∧ v ≤ accMax c

/-- The range check after every exact result (R93). -/
def checkAcc (c : Config) (v : Int) : Except Raise Int :=
  if inAcc c v then .ok v else .error (.accOverflow v)

/-- `trunc10(a)` (R15): a divided by 10, rounded toward zero. -/
def trunc10 (a : Int) : Int := a.tdiv 10

/-- `floor10(a)` (R15): a divided by 10, rounded toward minus infinity. -/
def floor10 (a : Int) : Int := a.fdiv 10

/-- L, the tens digit of a shift code in 0..99 (R96). -/
def shiftLeftCount (code : Int) : Nat := code.toNat / 10

/-- R, the units digit of a shift code in 0..99 (R96). -/
def shiftRightCount (code : Int) : Nat := code.toNat % 10

/-- The shift code in cell `a`, refused outside 0..99 (R96). -/
def shiftCode (s : State) (a : Nat) : Except Raise Int :=
  match memRead s a with
  | .error r => .error r
  | .ok code => if 0 ≤ code ∧ code ≤ 99 then .ok code else .error (.shiftCodeRange a code)

/-- `repeat n: x <- x * 10; if not in_acc(x): raise ACC_OVERFLOW(x)` (R96). -/
def timesTen (c : Config) : Nat → Int → Except Raise Int
  | 0, x => .ok x
  | n + 1, x =>
    match checkAcc c (x * 10) with
    | .ok y => timesTen c n y
    | .error r => .error r

/-- One division by 10 (R96): exact, or of a value >= 0, where both roundings agree; else as SHIFT_DIV_MODE says. -/
def divTen (c : Config) (x : Int) : Except Raise Int :=
  if x < 0 ∧ x % 10 ≠ 0 then
    match c.shiftDiv with
    | .undecided => .error (.shiftRounding x)
    | .trunc => .ok (trunc10 x)
    | .floor => .ok (floor10 x)
  else .ok (x / 10)

/-- `repeat n:` one division by 10 (R96). -/
def divTens (c : Config) : Nat → Int → Except Raise Int
  | 0, x => .ok x
  | n + 1, x =>
    match divTen c x with
    | .ok y => divTens c n y
    | .error r => .error r

/-- All the multiplications, then all the divisions (R96). -/
def shiftValue (c : Config) (code x : Int) : Except Raise Int :=
  match timesTen c (shiftLeftCount code) x with
  | .ok y => divTens c (shiftRightCount code) y
  | .error r => .error r

end Sys2Proof.Machine
end

