-- ==== Sys2Proof/Machine/Flags.lean ====
section
/-! DEFINITION. The engine has no condition codes (spec/10_state.md R32). Its one status flag is the running flag, and
TEST reads the sign of the accumulator directly (spec/43_control.md R99). -/

namespace Sys2Proof.Machine

/-- The running flag (R32): exactly `run_state = RUNNING`. -/
def runningFlag (s : State) : Bool := decide (s.runState = .running)

/-- The sign TEST asks for (R99): 0 is not negative. -/
def isNegative (x : Int) : Bool := decide (x < 0)

end Sys2Proof.Machine
end

