-- ==== Sys2Proof/Machine/Accumulator.lean ====
section
/-! DEFINITION. LOAD, ADD, SHIFT, STORE and SUB (spec/42_accumulator.md R94 to R98). -/

namespace Sys2Proof.Machine

/-- LOAD (R94): `acc <- MemRead(a, 1)`. -/
def loadEffect (a : Nat) (s : State) : Except Raise Effected := do
  let v ← memRead s a
  return { st := s.setAcc v }

/-- The step of LOAD. -/
def execLoad (a : Nat) (s : State) : Host.Outcome State Fault Refusal :=
  finishStep (.opcode 1) s (loadEffect a s)

/-- ADD (R95): the accumulator is read first, then the cell; the exact sum is checked. -/
def addEffect (a : Nat) (s : State) : Except Raise Effected := do
  let x ← accRead s
  let v ← memRead s a
  let r ← checkAcc s.cfg (x + v)
  return { st := s.setAcc r }

/-- The step of ADD. -/
def execAdd (a : Nat) (s : State) : Host.Outcome State Fault Refusal :=
  finishStep (.opcode 2) s (addEffect a s)

/-- SHIFT (R96): the code is read and checked before the accumulator. -/
def shiftEffect (a : Nat) (s : State) : Except Raise Effected := do
  let code ← shiftCode s a
  let x ← accRead s
  let y ← shiftValue s.cfg code x
  return { st := s.setAcc y }

/-- The step of SHIFT. -/
def execShift (a : Nat) (s : State) : Host.Outcome State Fault Refusal :=
  finishStep (.opcode 4) s (shiftEffect a s)

/-- STORE (R97): `MemWrite(a, 1, acc)`. -/
def storeEffect (a : Nat) (s : State) : Except Raise Effected := do
  let x ← accRead s
  let s1 ← memWrite s a x
  return { st := s1 }

/-- The step of STORE. -/
def execStore (a : Nat) (s : State) : Host.Outcome State Fault Refusal :=
  finishStep (.opcode 6) s (storeEffect a s)

/-- SUB (R98): as ADD, with the exact difference. -/
def subEffect (a : Nat) (s : State) : Except Raise Effected := do
  let x ← accRead s
  let v ← memRead s a
  let r ← checkAcc s.cfg (x - v)
  return { st := s.setAcc r }

/-- The step of SUB. -/
def execSub (a : Nat) (s : State) : Host.Outcome State Fault Refusal :=
  finishStep (.opcode 7) s (subEffect a s)

end Sys2Proof.Machine
end

