-- ==== Sys2Proof/Machine/Control.lean ====
section
/-! DEFINITION. TEST, JUMP, HALT, the unrecognised word (spec/43_control.md R99 to R102) and the refused negative word
(spec/30_encoding.md R59 (d), spec/40_cycle.md R82). -/

namespace Sys2Proof.Machine

/-- TEST (R99): a branch to `a` if the accumulator is negative. -/
def testEffect (a : Nat) (s : State) : Except Raise Effected := do
  let x ← accRead s
  return { st := s, target := if isNegative x then some a else none }

/-- The step of TEST. -/
def execTest (a : Nat) (s : State) : Host.Outcome State Fault Refusal :=
  finishStep (.opcode 3) s (testEffect a s)

/-- The word JUMP saves in cell 99 (R100, C1): 800 + c + 1, itself a JUMP to the cell after the call. -/
def returnWord (c : Nat) : Int := 800 + (c : Int) + 1

/-- JUMP (R100): `MemWrite(99, 1, 800 + pc + 1); t <- a`. -/
def jumpEffect (a : Nat) (s : State) : Except Raise Effected := do
  let s1 ← memWrite s 99 (returnWord s.pc)
  return { st := s1, target := some a }

/-- The step of JUMP. -/
def execJump (a : Nat) (s : State) : Host.Outcome State Fault Refusal :=
  finishStep (.opcode 8) s (jumpEffect a s)

/-- HALT (R101): `k <- HALT_INSTR`; the address field is ignored. -/
def haltEffect (_a : Nat) (s : State) : Except Raise Effected :=
  .ok { st := s, halt := .haltInstr }

/-- The step of HALT. -/
def execHalt (a : Nat) (s : State) : Host.Outcome State Fault Refusal :=
  finishStep (.opcode 9) s (haltEffect a s)

/-- The unrecognised word (R102): `k <- UNKNOWN_OPCODE`, a halt and not a fault. -/
def unrecognisedEffect (_w : Int) (s : State) : Except Raise Effected :=
  .ok { st := s, halt := .unknownOpcode }

/-- The step of an unrecognised word; `ir` becomes UNKNOWN. -/
def execUnrecognised (w : Int) (s : State) : Host.Outcome State Fault Refusal :=
  finishStep .unknown s (unrecognisedEffect w s)

/-- A word in -99..-1 (R59 (d), R82): NEGATIVE_WORD in mode FAULT, as an unrecognised word in mode HALT. -/
def refusedNegativeEffect (w : Int) (s : State) : Except Raise Effected :=
  match s.cfg.decodeNeg with
  | .fault => .error (.negativeWord w)
  | .halt => unrecognisedEffect w s

/-- The step of a refused negative word. -/
def execRefusedNegative (w : Int) (s : State) : Host.Outcome State Fault Refusal :=
  finishStep .unknown s (refusedNegativeEffect w s)

end Sys2Proof.Machine
end

