-- ==== Sys2Proof/Machine/Io.lean ====
section
/-! DEFINITION. IN and OUT (spec/41_io.md R91, R92). -/

namespace Sys2Proof.Machine

/-- IN (R91): `v <- DeckRead(); MemWrite(a, 1, v)`. -/
def inputEffect (a : Nat) (s : State) : Except Raise Effected := do
  let (v, s1) ← deckRead s
  let s2 ← memWrite s1 a v
  return { st := s2 }

/-- The step of IN. -/
def execInput (a : Nat) (s : State) : Host.Outcome State Fault Refusal :=
  finishStep (.opcode 0) s (inputEffect a s)

/-- OUT (R92): `v <- MemRead(a, 1); OutEmit(v)`. -/
def outputEffect (a : Nat) (s : State) : Except Raise Effected := do
  let v ← memRead s a
  return { st := s.outEmit v }

/-- The step of OUT. -/
def execOutput (a : Nat) (s : State) : Host.Outcome State Fault Refusal :=
  finishStep (.opcode 5) s (outputEffect a s)

end Sys2Proof.Machine
end

