-- ==== Sys2Proof/Machine/Dispatch.lean ====
section
/-! DEFINITION. Dispatch to exactly one meaning (spec/40_cycle.md R83). -/

namespace Sys2Proof.Machine

def exec (i : Instr) (s : State) : Host.Outcome State Fault Refusal :=
  match i with
  | .input a => Sys2Proof.Machine.execInput a s
  | .load a => Sys2Proof.Machine.execLoad a s
  | .add a => Sys2Proof.Machine.execAdd a s
  | .test a => Sys2Proof.Machine.execTest a s
  | .shift a => Sys2Proof.Machine.execShift a s
  | .output a => Sys2Proof.Machine.execOutput a s
  | .store a => Sys2Proof.Machine.execStore a s
  | .sub a => Sys2Proof.Machine.execSub a s
  | .jump a => Sys2Proof.Machine.execJump a s
  | .halt a => Sys2Proof.Machine.execHalt a s
  | .unrecognised w => Sys2Proof.Machine.execUnrecognised w s
  | .refusedNegative w => Sys2Proof.Machine.execRefusedNegative w s

end Sys2Proof.Machine
end

