-- ==== Sys2Proof/Machine/Step.lean ====
section
/-! DEFINITION. One step of the engine (spec/40_cycle.md R80 to R86). -/

namespace Sys2Proof.Machine

/-- A step is taken only while RUNNING (R80): fetch (R81), decode (R82), then the meaning of the instruction, which
ends the step. A HALTED or FAULTED engine takes none. -/
def step (s : State) : Host.Outcome State Fault Refusal :=
  match s.runState with
  | .halted => .fault .runHalted
  | .faulted => .fault .runFaulted
  | .running =>
    match fetch s with
    | .error r => .next (takeFault s r)
    | .ok w =>
      match decode w with
      | .ok i => exec i s
      | .error (.notACellValue v) => .refused (.notACellValue v)

/-- The state with the word given as bits in the cell that the next step fetches (log entries 4 and 5). -/
def State.withFetchWord (s : State) (_nbits w : Nat) : State :=
  s.setMem (s.mem.write s.pc (cellOfBits w))

end Sys2Proof.Machine
end

