-- ==== Sys2Proof/Machine/Assembler.lean ====
section
/-! DEFINITION. The two-pass assembler, the host software that produces memory images (spec/30_encoding.md R65 to R79).
No rule of the engine depends on it. Texts and tokens are lists of characters. -/

namespace Sys2Proof.Machine

/-- A token of a source line. -/
abbrev Token := List Char

/-- The fatal assembly errors (R76, R77); none of them leaves an image. -/
inductive AsmError where
  /-- R76. -/
  | unknownMnemonic (t : Token)
  /-- R76. -/
  | missingOperand
  /-- R77: a token after the operand. -/
  | trailingToken
  /-- R75: HALT takes no operand. -/
  | haltOperand
  /-- A numeric operand token that is no integer (log entry 16). -/
  | badLiteral (t : Token)
  /-- R77: a literal operand outside 0..99. -/
  | operandRange (v : Int)
  /-- A declaration that is not a name with an optional `= <integer>` (R65). -/
  | badDeclaration
  /-- R77: an initializer that is not an integer in the cell range. -/
  | badInitializer (t : Token)
  /-- R73, R77: more than VAR_CAP variables. -/
  | tooManyVariables
  /-- R77: an instruction beyond cell 99. -/
  | tooManyInstructions
  /-- R70, R77. -/
  | duplicateLabel (t : Token)
  /-- A label definition without a name (log entry 16). -/
  | emptyLabel
  /-- A token that starts with `#` where a label, a declaration or an instruction may follow a label (log entry 14). -/
  | commentAfterLabel (t : Token)
  /-- A label bound to the address after cell 99, used as an operand (log entry 16). -/
  | labelRange (t : Token)
deriving DecidableEq, Repr

/-- What the operand of an instruction line is (R67). -/
inductive Operand where
  | literal (a : Nat)
  | name (t : Token)
deriving DecidableEq, Repr

/-- What a line holds, in order (R65): label definitions, then at most one declaration or instruction. HALT has the
literal operand 0, since it encodes as 900 (R75). -/
inductive Item where
  | label (t : Token)
  | decl (t : Token) (init : Option Int)
  | instr (op : Nat) (operand : Operand)
deriving DecidableEq, Repr

/-! ### Characters, tokens and lines -/

/-- White space inside a line (log entry 17). -/
def isBlank (c : Char) : Bool := c = ' ' || c = '\t' || c = '\r'

/-- A decimal digit. -/
def isDigit (c : Char) : Bool := 48 ≤ c.toNat && c.toNat ≤ 57

/-- The pieces of a text between the characters that `sep` picks, empty pieces included; `cur` is the piece being read,
backwards. -/
def splitAtSep (sep : Char → Bool) : List Char → List Char → List (List Char)
  | cur, [] => [cur.reverse]
  | cur, c :: cs => if sep c then cur.reverse :: splitAtSep sep [] cs else splitAtSep sep (c :: cur) cs

/-- The lines of a source text (R65: line-oriented). -/
def sourceLines (text : List Char) : List (List Char) := splitAtSep (fun c => c = '\n') [] text

/-- The whitespace-separated tokens of a line (R65). -/
def lineTokens (line : List Char) : List Token := (splitAtSep isBlank [] line).filter (fun t => !t.isEmpty)

/-- The value of a run of digits. -/
def digitsValue : Nat → List Char → Option Nat
  | n, [] => some n
  | n, c :: cs => if isDigit c then digitsValue (10 * n + (c.toNat - 48)) cs else none

/-- A non-empty run of digits. -/
def parseNat : Token → Option Nat
  | [] => none
  | c :: cs => digitsValue 0 (c :: cs)

/-- An optionally signed decimal integer (R74). -/
def parseInt : Token → Option Int
  | '-' :: cs => (parseNat cs).map (fun n => -(n : Int))
  | '+' :: cs => (parseNat cs).map (fun n => (n : Int))
  | cs => (parseNat cs).map (fun n => (n : Int))

/-! ### One line -/

/-- The mnemonics, exactly, in upper case (R66). -/
def mnemonicOpcode (t : Token) : Option Nat :=
  if t = ['I', 'N'] then some 0
  else if t = ['L', 'O', 'A', 'D'] then some 1
  else if t = ['A', 'D', 'D'] then some 2
  else if t = ['T', 'E', 'S', 'T'] then some 3
  else if t = ['S', 'H', 'I', 'F', 'T'] then some 4
  else if t = ['O', 'U', 'T'] then some 5
  else if t = ['S', 'T', 'O', 'R', 'E'] then some 6
  else if t = ['S', 'U', 'B'] then some 7
  else if t = ['J', 'U', 'M', 'P'] then some 8
  else if t = ['H', 'A', 'L', 'T'] then some 9
  else none

/-- A token that starts with a digit or a minus sign is a literal (R67). -/
def isLiteralToken : Token → Bool
  | [] => false
  | c :: _ => isDigit c || c = '-'

/-- An operand token (R67); a literal is in 0..99 (R77). -/
def parseOperand (t : Token) : Except AsmError Operand :=
  if isLiteralToken t then
    match parseInt t with
    | none => .error (.badLiteral t)
    | some v => if 0 ≤ v ∧ v ≤ 99 then .ok (.literal v.toNat) else .error (.operandRange v)
  else .ok (.name t)

/-- An initializer literal (R74). -/
def parseInit (t : Token) : Except AsmError Int :=
  match parseInt t with
  | none => .error (.badInitializer t)
  | some v => if inCell v then .ok v else .error (.badInitializer t)

/-- Every `=` as a token of its own, wherever it stood (R74, D36). -/
def isolateEquals (cur : List Char) : List Char → List Token
  | [] => [cur.reverse]
  | c :: cs => if c = '=' then cur.reverse :: ['='] :: isolateEquals [] cs else isolateEquals (c :: cur) cs

/-- What follows VAR_KEYWORD (R65, R74). -/
def scanDeclaration (rest : List Token) : Except AsmError Item :=
  match (rest.flatMap (isolateEquals [])).filter (fun t => !t.isEmpty) with
  | [n] => if n = ['='] then .error .badDeclaration else .ok (.decl n none)
  | [n, e, v] =>
    if n ≠ ['='] ∧ e = ['='] then (parseInit v).map (fun x => .decl n (some x)) else .error .badDeclaration
  | _ => .error .badDeclaration

/-- A declaration or an instruction, from its first token and the rest (R65, R66, R70, R75). VAR_KEYWORD is compared
exactly, case included (DESIGN CHOICE, log entry 19). -/
def scanStatement (ac : AsmConfig) (t : Token) (rest : List Token) : Except AsmError Item :=
  if ac.varKeyword = some t then scanDeclaration rest
  else
    match mnemonicOpcode t with
    | none => .error (.unknownMnemonic t)
    | some op =>
      if op = 9 then
        match rest with
        | [] => .ok (.instr 9 (.literal 0))
        | _ :: _ => .error .haltOperand
      else
        match rest with
        | [] => .error .missingOperand
        | [x] => (parseOperand x).map (fun o => .instr op o)
        | _ :: _ :: _ => .error .trailingToken

/-- A token that ends in `:` is a label definition, and the rest of its line is scanned as a line of its own (R70), so
that a second label may follow (DEDUCED, log entry 14). A token that starts with `#` is refused after a label, ending in
`:` or not: it is neither a comment, since only whole lines are (R65), nor a label (DESIGN CHOICE, log entry 14). At the
start of a line such a token makes a comment line, which is not scanned. -/
def scanTokens (ac : AsmConfig) : List Token → Except AsmError (List Item)
  | [] => .ok []
  | t :: rest =>
    if t.head? = some '#' then .error (.commentAfterLabel t)
    else if t.getLast? = some ':' then
      if t.length = 1 then .error .emptyLabel
      else (scanTokens ac rest).map (fun is => .label t.dropLast :: is)
    else (scanStatement ac t rest).map (fun i => [i])

/-- A line whose first non-blank character is `#` is a comment (R65). -/
def isComment : List Token → Bool
  | ('#' :: _) :: _ => true
  | _ => false

/-- The items of every line, in order (R65, R68). -/
def scanLines (ac : AsmConfig) : List (List Char) → Except AsmError (List Item)
  | [] => .ok []
  | l :: ls =>
    if isComment (lineTokens l) then scanLines ac ls
    else
      match scanTokens ac (lineTokens l) with
      | .error e => .error e
      | .ok is => (scanLines ac ls).map (fun js => is ++ js)

/-! ### The two passes -/

/-- The symbol tables (R70): labels with their addresses, and variables in the order of their addresses. -/
structure Symbols where
  labels : List (Token × Nat) := []
  vars : List Token := []
deriving DecidableEq, Repr

/-- The address of the n-th variable, counted from 0 (R13 VAR_BASE, R73). -/
def variableAddress (n : Nat) : Nat := 1 + n

/-- The next variable gets the next address, up to VAR_CAP of them (R73); a name already in the table keeps its own
(log entry 15). An address past cell 99 is no cell. -/
def addVariable (ac : AsmConfig) (y : Symbols) (t : Token) : Except AsmError (Symbols × Nat) :=
  match y.vars.idxOf? t with
  | some n => .ok (y, variableAddress n)
  | none =>
    if y.vars.length < ac.varCap ∧ variableAddress y.vars.length ≤ 99 then
      .ok ({ y with vars := y.vars ++ [t] }, variableAddress y.vars.length)
    else .error .tooManyVariables

/-- Pass 1 (R70), from the given value of the instruction address counter. -/
def passOne (ac : AsmConfig) : List Item → Nat → Symbols → Except AsmError Symbols
  | [], _, y => .ok y
  | .label t :: is, n, y =>
    match y.labels.lookup t with
    | some _ => .error (.duplicateLabel t)
    | none => passOne ac is n { y with labels := y.labels ++ [(t, n)] }
  | .decl t _ :: is, n, y =>
    match addVariable ac y t with
    | .error e => .error e
    | .ok (y', _) => passOne ac is n y'
  | .instr _ _ :: is, n, y => if n ≤ 99 then passOne ac is (n + 1) y else .error .tooManyInstructions

/-- The address of an operand: the literal, or the label, or the variable, or a new variable (R67, R72). Names are
compared exactly, case included (DESIGN CHOICE, log entry 19). -/
def resolve (ac : AsmConfig) (y : Symbols) : Operand → Except AsmError (Symbols × Nat)
  | .literal a => .ok (y, a)
  | .name t =>
    match y.labels.lookup t with
    | some a => if a ≤ 99 then .ok (y, a) else .error (.labelRange t)
    | none => addVariable ac y t

/-- Pass 2 (R71): initializers and encoded instructions are stored into the image. -/
def passTwo (ac : AsmConfig) : List Item → Nat → Symbols → List Int → Except AsmError (List Int)
  | [], _, _, image => .ok image
  | .label _ :: is, n, y, image => passTwo ac is n y image
  | .decl t init :: is, n, y, image =>
    match addVariable ac y t with
    | .error e => .error e
    | .ok (y', a) =>
      match init with
      | none => passTwo ac is n y' image
      | some v => passTwo ac is n y' (image.set a v)
  | .instr op o :: is, n, y, image =>
    match resolve ac y o with
    | .error e => .error e
    | .ok (y', a) =>
      if n ≤ 99 then passTwo ac is (n + 1) y' (image.set n (encodeFields op a)) else .error .tooManyInstructions

/-- Every cell 0 (R78). -/
def emptyImage : List Int := List.replicate 100 0

/-- The assembler (R68 to R78): the counter starts at 10 in each pass (R69). -/
def assemble (ac : AsmConfig) (text : List Char) : Except AsmError (List Int) :=
  match scanLines ac (sourceLines text) with
  | .error e => .error e
  | .ok items =>
    match passOne ac items 10 {} with
    | .error e => .error e
    | .ok y => passTwo ac items 10 y emptyImage

end Sys2Proof.Machine
end

