-- ==== Sys2Proof/Machine/Boot.lean ====
section
/-! DEFINITION. The start of a run from the host's inputs (spec/70_reset_and_hazards.md R123 to R129). -/

namespace Sys2Proof.Machine

/-- Loading the image and then seeding cell 0 with 1, whatever the image holds there (R127). -/
def loadImage (image : List Int) : Memory := (Memory.ofCells 0 image).write 0 1

/-- `start` (R123, R129): every piece of state at its reset value. -/
def start (cfg : Config) (image deck : List Int) : State where
  cfg := cfg
  mem := loadImage image
  acc := cfg.accInit
  pc := 10
  ir := .none
  runState := .running
  haltCause := .none
  faultCode := .none
  deck := deck
  cursor := 0
  out := []

/-- A value the accumulator can hold: NONE, or one in range (R22). -/
def accOk (c : Config) : Option Int → Prop
  | none => True
  | some v => inAcc c v

/-- The parameters are legal: ACC_BITS >= 16 (R9) and ACC_INIT a value of the accumulator (R22, R23). -/
def configOk (c : Config) : Prop := 16 ≤ c.accBits ∧ accOk c c.accInit

/-- The host's duties before `start`: 100 cell values (R126) and at most 100 deck values, each a cell value (R128). -/
abbrev hostDuty (image deck : List Int) : Prop :=
  image.length = 100 ∧ (∀ v ∈ image, inCell v) ∧ deck.length ≤ 100 ∧ ∀ v ∈ deck, inCell v

/-- The whole boot order of R129, from source text. -/
def bootSource (ac : AsmConfig) (cfg : Config) (text : List Char) (deck : List Int) : Except AsmError State :=
  match assemble ac text with
  | .error e => .error e
  | .ok image => .ok (start cfg image deck)

end Sys2Proof.Machine
end

