-- ==== Sys2Proof/Machine/HostView.lean ====
section
/-! DEFINITION. What the host reads: the output lines, at any time (spec/20_memory.md R56, R42), and every piece of
state once the run is over (spec/70_reset_and_hazards.md R131, R134, R135). -/

namespace Sys2Proof.Machine

/-- The character of a decimal digit. -/
def digitChar (d : Nat) : Char := Char.ofNat (48 + d)

/-- The decimal digits of `n`, most significant first, put before `acc`; the fuel is at least the number of digits. -/
def decimalDigits : Nat → Nat → List Char → List Char
  | 0, _, acc => acc
  | fuel + 1, n, acc =>
    if n < 10 then digitChar n :: acc else decimalDigits fuel (n / 10) (digitChar (n % 10) :: acc)

/-- A natural number in decimal, without leading zeros. -/
def spellNat (n : Nat) : List Char := decimalDigits (n + 1) n []

/-- The spelling of one output value (R56). -/
def spellLine (v : Int) : List Char := if v < 0 then '-' :: spellNat v.natAbs else spellNat v.natAbs

/-- The output as the host prints it: one line per emitted value (R42, R56). -/
def outputLines (s : State) : List (List Char) := s.out.map spellLine

/-- The tuple of R131. -/
structure Observation where
  out : List Int
  mem : Memory
  acc : Option Int
  pc : Nat
  ir : Ir
  cursor : Nat
  runState : RunState
  haltCause : HaltCause
  faultCode : FaultCode
deriving DecidableEq, Repr

/-- What the host may read of the state at the end of a run, and only then (R135). -/
def endObservation (s : State) : Option Observation :=
  if runningFlag s then none
  else some
    { out := s.out, mem := s.mem, acc := s.acc, pc := s.pc, ir := s.ir, cursor := s.cursor,
      runState := s.runState, haltCause := s.haltCause, faultCode := s.faultCode }

end Sys2Proof.Machine
end

