-- ==== Sys2Proof/Machine/Transactions.lean ====
section
/-! DEFINITION. The transactions of a step on the engine's ports, in order (spec/20_memory.md R46, R54), and the
information of a fault, recomputed from the state (spec/60_exceptions.md R106). -/

namespace Sys2Proof.Machine

/-- One exchange on the memory, deck or output port (R54). -/
inductive Transaction where
  | memRead (a : Nat)
  | memWrite (a : Nat)
  | deckRead
  | outEmit
deriving DecidableEq, Repr

/-- The data accesses of each instruction (R46's table). A step that faults stops at the access that raised; these are
the accesses of the instruction's pseudocode (log entry 13). -/
def dataTransactions : Instr → List Transaction
  | .input a => [.deckRead, .memWrite a]
  | .load a => [.memRead a]
  | .add a => [.memRead a]
  | .test _ => []
  | .shift a => [.memRead a]
  | .output a => [.memRead a, .outEmit]
  | .store a => [.memWrite a]
  | .sub a => [.memRead a]
  | .jump _ => [.memWrite 99]
  | .halt _ => []
  | .unrecognised _ => []
  | .refusedNegative _ => []

/-- A step's transactions: the fetch, then the data accesses of the fetched instruction (R46). -/
def stepTransactions (s : State) : List Transaction :=
  .memRead s.pc ::
    match fetch s with
    | .error _ => []
    | .ok w =>
      match decode w with
      | .ok i => dataTransactions i
      | .error _ => []

/-- What `ir` becomes when the step of each instruction completes (R82). -/
def irAfter : Instr → Ir
  | .input _ => .opcode 0
  | .load _ => .opcode 1
  | .add _ => .opcode 2
  | .test _ => .opcode 3
  | .shift _ => .opcode 4
  | .output _ => .opcode 5
  | .store _ => .opcode 6
  | .sub _ => .opcode 7
  | .jump _ => .opcode 8
  | .halt _ => .opcode 9
  | .unrecognised _ => .unknown
  | .refusedNegative _ => .unknown

/-- The effect `exec` runs for each instruction, by itself. -/
def effectOf (i : Instr) (s : State) : Except Raise Effected :=
  match i with
  | .input a => inputEffect a s
  | .load a => loadEffect a s
  | .add a => addEffect a s
  | .test a => testEffect a s
  | .shift a => shiftEffect a s
  | .output a => outputEffect a s
  | .store a => storeEffect a s
  | .sub a => subEffect a s
  | .jump a => jumpEffect a s
  | .halt a => haltEffect a s
  | .unrecognised w => unrecognisedEffect w s
  | .refusedNegative w => refusedNegativeEffect w s

/-- The raise that the instruction at pc reaches, if any. On a FAULTED state it is the fault's information, since the
faulting step changed nothing it is computed from (R106). -/
def faultInfo (s : State) : Option Raise :=
  match fetch s with
  | .error r => some r
  | .ok w =>
    match decode w with
    | .error _ => none
    | .ok i =>
      match effectOf i s with
      | .error r => some r
      | .ok _ => none

end Sys2Proof.Machine
end

