-- ==== Sys2Proof/Safety.lean ====
section
/-! DEFINITION. Runs, their ends, and the invariant of the engine's states, in the terms the statements use
(spec/70_reset_and_hazards.md R131 to R133, spec/40_cycle.md R87, R88). -/

namespace Sys2Proof.Machine

/-- A run: zero or more steps. -/
inductive Steps : State → State → Prop where
  | refl (s : State) : Steps s s
  | tail (s t u : State) : Steps s t → step t = .next u → Steps s u

/-- The run from `s` ends in `t` (R131). A run whose step is refused neither ends nor never ends (log entry 8). -/
def EndsIn (s t : State) : Prop := Steps s t ∧ t.runState ≠ .running

/-- A good end is HALTED; a FAULTED end never is one (R132). -/
def GoodEnd (t : State) : Prop := t.runState = .halted

/-- The run from `s` never ends (R88, R131): every state it reaches is RUNNING and has a next state (R133). So a run
that comes to a refused step is no hang: R131 says nothing of it, and the model counts it neither as ended nor as
endless (DESIGN CHOICE, log entry 8). -/
def NeverEnds (s : State) : Prop := ∀ t, Steps s t → t.runState = .running ∧ ∃ u, step t = .next u

/-- What holds of every state of a run that began with the host's duties kept. -/
structure State.Inv (s : State) : Prop where
  /-- R9, R14. -/
  cfg_ok : configOk s.cfg
  /-- R20: 100 cells, each a cell value, in canonical form. -/
  mem_wf : s.mem.wf
  /-- R22. -/
  acc_ok : accOk s.cfg s.acc
  /-- R24, R87: 0..100, and 100 only once HALTED. -/
  pc_le : s.pc ≤ 100
  pc_lt : s.runState ≠ .halted → s.pc ≤ 99
  /-- R29: a halt cause exactly in HALTED. -/
  halt_iff : s.haltCause ≠ .none ↔ s.runState = .halted
  /-- R30: a fault code exactly in FAULTED. -/
  fault_iff : s.faultCode ≠ .none ↔ s.runState = .faulted
  /-- R33: DECK_LEN <= DECK_CAP. -/
  deck_len : s.deck.length ≤ 100
  /-- R34: in mode FAULT the cursor stays within the deck. -/
  cursor_le : s.cfg.deckExhausted = .fault → s.cursor ≤ s.deck.length
  /-- R35. -/
  out_ok : ∀ v ∈ s.out, inCell v

end Sys2Proof.Machine
end

