-- ==== Sys2Proof/Certificates/Slice0/Obligations.lean ====
section
/-! DEFINITION. The statements for the provers, from the numbered rules of spec/. Each docstring names the rules. -/

namespace Sys2Proof.Slice0
open Sys2Proof.Machine

/-- The engine is RUNNING with its pc on a cell, as it is between the steps of a run (R24, R80). -/
abbrev Ready (s : State) : Prop := s.runState = .running ∧ s.pc ≤ 99

/-- The pc update and the halting check of a step that sets no branch target and requests no halt (R84, R85). -/
def FallsThrough (s t : State) : Prop :=
  t.pc = s.pc + 1 ∧ (s.pc = 99 → t.runState = .halted ∧ t.haltCause = .pcOverflow) ∧
    (s.pc ≠ 99 → t.runState = .running ∧ t.haltCause = s.haltCause)

/-- The pc update and the halting check of a taken branch to `a` (R84, R85). -/
def BranchesTo (a : Nat) (s t : State) : Prop :=
  t.pc = a ∧ t.runState = .running ∧ t.haltCause = s.haltCause

/-- What no instruction that completes ever changes: the parameters, the deck and the fault code (R19, R30, R33). -/
def KeepsTheRest (s t : State) : Prop := t.cfg = s.cfg ∧ t.deck = s.deck ∧ t.faultCode = s.faultCode

/-- The state a fault leaves: `run_state` and `fault_code` and nothing else (R110, R111). -/
def faulted (s : State) (f : FaultCode) : State := { s with runState := .faulted, faultCode := f }

/-- The instructions that write the accumulator (R22). -/
def writesAcc : Instr → Bool
  | .load _ => true
  | .add _ => true
  | .sub _ => true
  | .shift _ => true
  | .input _ => false
  | .output _ => false
  | .store _ => false
  | .test _ => false
  | .jump _ => false
  | .halt _ => false
  | .unrecognised _ => false
  | .refusedNegative _ => false

/-- The instructions that read the accumulator (R22). -/
def readsAcc : Instr → Bool
  | .add _ => true
  | .sub _ => true
  | .shift _ => true
  | .store _ => true
  | .test _ => true
  | .load _ => false
  | .input _ => false
  | .output _ => false
  | .jump _ => false
  | .halt _ => false
  | .unrecognised _ => false
  | .refusedNegative _ => false

/-- The one cell an instruction may write (R46): the address field of IN and STORE, cell 99 for JUMP. -/
def storedCell : Instr → Option Nat
  | .input a => some a
  | .store a => some a
  | .jump _ => some 99
  | .load _ => none
  | .add _ => none
  | .sub _ => none
  | .shift _ => none
  | .test _ => none
  | .output _ => none
  | .halt _ => none
  | .unrecognised _ => none
  | .refusedNegative _ => none

/-- The branch target an instruction sets (R99, R100). -/
def branchTarget (i : Instr) (s : State) : Option Nat :=
  match i with
  | .test a => (match s.acc with | some x => if x < 0 then some a else none | none => none)
  | .jump a => some a
  | .input _ => none
  | .load _ => none
  | .add _ => none
  | .sub _ => none
  | .shift _ => none
  | .store _ => none
  | .output _ => none
  | .halt _ => none
  | .unrecognised _ => none
  | .refusedNegative _ => none

/-- The halt cause an instruction requests (R101, R102; R59 (d) in mode HALT). -/
def haltRequest : Instr → HaltCause
  | .halt _ => .haltInstr
  | .unrecognised _ => .unknownOpcode
  | .refusedNegative _ => .unknownOpcode
  | .input _ => .none
  | .load _ => .none
  | .add _ => .none
  | .sub _ => .none
  | .shift _ => .none
  | .store _ => .none
  | .output _ => .none
  | .test _ => .none
  | .jump _ => .none

/-- `d` differs from `c` only where the spec leaves a choice open and `c` faults there: a wider accumulator (D3), another
mode where `c` has the faulting default (D6, D8, D10). -/
def ResolvesMore (c d : Config) : Prop :=
  c.accBits ≤ d.accBits ∧ (c.deckExhausted = .fault ∨ d.deckExhausted = c.deckExhausted) ∧
    (c.decodeNeg = .fault ∨ d.decodeNeg = c.decodeNeg) ∧ (c.shiftDiv = .undecided ∨ d.shiftDiv = c.shiftDiv)

/-- The two states differ only in such choices: in the configuration, and in an accumulator that is NONE on the left
(D2). -/
def AgreesUpToChoices (s s' : State) : Prop :=
  ResolvesMore s.cfg s'.cfg ∧ (s.acc = none ∨ s'.acc = s.acc) ∧ { s' with cfg := s.cfg, acc := s.acc } = s

end Sys2Proof.Slice0

open Sys2Proof Sys2Proof.Machine Sys2Proof.Slice0

/-! ### The instructions -/

/-- IN (R91): the next deck value goes into cell `a`, the cursor advances, nothing else but ir, pc and the halting
check changes. The stored cell is `a`, the address `inputEffect` writes. -/
def Obligations.InputStoresTheNextDeckValue : Prop :=
  ∀ (s : State) (a : Nat) (v : Int), Ready s → s.mem.wf → a ≤ 99 → s.deck[s.cursor]? = some v → inCell v →
    ∃ t, exec (.input a) s = .next t ∧ t.mem.read a = v ∧ (∀ b, b ≠ a → t.mem.read b = s.mem.read b) ∧
      t.cursor = s.cursor + 1 ∧ t.ir = .opcode 0 ∧ FallsThrough s t ∧ KeepsTheRest s t ∧ t.acc = s.acc ∧ t.out = s.out

/-- IN past the loaded deck (R41, R91): DECK_EXHAUSTED in mode FAULT; in mode ZERO the value is 0 and the cursor still
advances. -/
def Obligations.InputPastTheDeckFaultsOrReadsZero : Prop :=
  ∀ (s : State) (a : Nat), Ready s → s.mem.wf → a ≤ 99 → s.deck.length ≤ s.cursor →
    (s.cfg.deckExhausted = .fault → exec (.input a) s = .next (faulted s .deckExhausted)) ∧
    (s.cfg.deckExhausted = .zero →
      ∃ t, exec (.input a) s = .next t ∧ t.mem.read a = 0 ∧ (∀ b, b ≠ a → t.mem.read b = s.mem.read b) ∧
        t.cursor = s.cursor + 1 ∧ t.ir = .opcode 0 ∧ FallsThrough s t ∧ KeepsTheRest s t ∧ t.acc = s.acc ∧ t.out = s.out)

/-- A value outside the cell range faults where it would be stored, with no effect (R39, R91, R97): IN of a deck value,
cursor included, and STORE of a wide accumulator. -/
def Obligations.StoringOutsideTheCellRangeFaults : Prop :=
  ∀ (s : State) (a : Nat) (v : Int), Ready s → a ≤ 99 → ¬ inCell v →
    (s.deck[s.cursor]? = some v → exec (.input a) s = .next (faulted s .cellRange)) ∧
    (s.acc = some v → exec (.store a) s = .next (faulted s .cellRange))

/-- OUT (R92): the cell is appended to the output; memory, accumulator and cursor stay. -/
def Obligations.OutputEmitsTheCell : Prop :=
  ∀ (s : State) (a : Nat), Ready s → a ≤ 99 →
    ∃ t, exec (.output a) s = .next t ∧ t.out = s.out ++ [s.mem.read a] ∧ t.ir = .opcode 5 ∧ FallsThrough s t ∧
      KeepsTheRest s t ∧ t.mem = s.mem ∧ t.acc = s.acc ∧ t.cursor = s.cursor

/-- LOAD (R94): the accumulator becomes the cell, whatever it held; memory, cursor and output stay. -/
def Obligations.LoadCopiesTheCell : Prop :=
  ∀ (s : State) (a : Nat), Ready s → a ≤ 99 →
    ∃ t, exec (.load a) s = .next t ∧ t.acc = some (s.mem.read a) ∧ t.ir = .opcode 1 ∧ FallsThrough s t ∧
      KeepsTheRest s t ∧ t.mem = s.mem ∧ t.cursor = s.cursor ∧ t.out = s.out

/-- ADD and SUB (R93, R95, R98): the exact sum or difference, when it is in the accumulator range. -/
def Obligations.AddAndSubtractAreExact : Prop :=
  ∀ (s : State) (a : Nat) (x : Int), Ready s → a ≤ 99 → s.acc = some x →
    (inAcc s.cfg (x + s.mem.read a) →
      ∃ t, exec (.add a) s = .next t ∧ t.acc = some (x + s.mem.read a) ∧ t.ir = .opcode 2 ∧ FallsThrough s t ∧
        KeepsTheRest s t ∧ t.mem = s.mem ∧ t.cursor = s.cursor ∧ t.out = s.out) ∧
    (inAcc s.cfg (x - s.mem.read a) →
      ∃ t, exec (.sub a) s = .next t ∧ t.acc = some (x - s.mem.read a) ∧ t.ir = .opcode 7 ∧ FallsThrough s t ∧
        KeepsTheRest s t ∧ t.mem = s.mem ∧ t.cursor = s.cursor ∧ t.out = s.out)

/-- ADD and SUB out of range (R93, R95, R98): no wrap and no saturation, ACC_OVERFLOW with no effect. -/
def Obligations.AddAndSubtractOverflowFaults : Prop :=
  ∀ (s : State) (a : Nat) (x : Int), Ready s → a ≤ 99 → s.acc = some x →
    (¬ inAcc s.cfg (x + s.mem.read a) → exec (.add a) s = .next (faulted s .accOverflow)) ∧
    (¬ inAcc s.cfg (x - s.mem.read a) → exec (.sub a) s = .next (faulted s .accOverflow))

/-- The accumulator range holds every cell value (R94, R9), and at the default width it is the cell range. -/
def Obligations.AccumulatorRangeHoldsEveryCellValue : Prop :=
  (∀ (c : Config) (v : Int), 16 ≤ c.accBits → inCell v → inAcc c v) ∧
    ∀ (c : Config) (v : Int), c.accBits = 16 → (inAcc c v ↔ inCell v)

/-- SHIFT in closed form (R96): with code 10 l + r and the product x * 10^l in range, the result is the product divided
by 10^r; exactly or for a product >= 0 in every mode, and as SHIFT_DIV_MODE says for the rest. Code 00 is l = r = 0. -/
def Obligations.ShiftMultipliesThenDivides : Prop :=
  ∀ (s : State) (a l r : Nat) (x y : Int), Ready s → a ≤ 99 → l ≤ 9 → r ≤ 9 → s.mem.read a = 10 * (l : Int) + (r : Int) →
    s.acc = some x → inAcc s.cfg (x * 10 ^ l) →
    ((0 ≤ x * 10 ^ l ∨ (10 : Int) ^ r ∣ x * 10 ^ l) ∧ y = (x * 10 ^ l) / 10 ^ r ∨
      s.cfg.shiftDiv = .trunc ∧ y = (x * 10 ^ l).tdiv (10 ^ r) ∨
      s.cfg.shiftDiv = .floor ∧ y = (x * 10 ^ l).fdiv (10 ^ r)) →
    ∃ t, exec (.shift a) s = .next t ∧ t.acc = some y ∧ t.ir = .opcode 4 ∧ FallsThrough s t ∧
      KeepsTheRest s t ∧ t.mem = s.mem ∧ t.cursor = s.cursor ∧ t.out = s.out

/-- The faults of SHIFT in their order (R96, R112): a code outside 0..99, before the accumulator is looked at; a product
out of range, even if the divisions would bring it back; a negative non-multiple divided in mode UNDECIDED. -/
def Obligations.ShiftFaultsInOrder : Prop :=
  ∀ (s : State) (a : Nat), Ready s → a ≤ 99 →
    (¬ (0 ≤ s.mem.read a ∧ s.mem.read a ≤ 99) → exec (.shift a) s = .next (faulted s .shiftCodeRange)) ∧
    ∀ (l r : Nat) (x : Int), l ≤ 9 → r ≤ 9 → s.mem.read a = 10 * (l : Int) + (r : Int) → s.acc = some x →
      inAcc s.cfg x →
      (¬ inAcc s.cfg (x * 10 ^ l) → exec (.shift a) s = .next (faulted s .accOverflow)) ∧
      (inAcc s.cfg (x * 10 ^ l) → x < 0 → ¬ (10 : Int) ^ r ∣ x * 10 ^ l → s.cfg.shiftDiv = .undecided →
        exec (.shift a) s = .next (faulted s .shiftRounding))

/-- STORE (R97): cell `a` becomes the accumulator, every other cell and the accumulator stay. The stored cell is `a`,
the address `storeEffect` writes. -/
def Obligations.StoreWritesTheAccumulator : Prop :=
  ∀ (s : State) (a : Nat) (x : Int), Ready s → s.mem.wf → a ≤ 99 → s.acc = some x → inCell x →
    ∃ t, exec (.store a) s = .next t ∧ t.mem.read a = x ∧ (∀ b, b ≠ a → t.mem.read b = s.mem.read b) ∧
      t.ir = .opcode 6 ∧ FallsThrough s t ∧ KeepsTheRest s t ∧ t.acc = s.acc ∧ t.cursor = s.cursor ∧ t.out = s.out

/-- TEST (R99): a branch to `a` exactly if the accumulator is negative; 0 falls through; nothing else changes, cell 99
included. -/
def Obligations.TestBranchesIfNegative : Prop :=
  ∀ (s : State) (a : Nat) (x : Int), Ready s → a ≤ 99 → s.acc = some x →
    ∃ t, exec (.test a) s = .next t ∧ (x < 0 → BranchesTo a s t) ∧ (0 ≤ x → FallsThrough s t) ∧ t.ir = .opcode 3 ∧
      KeepsTheRest s t ∧ t.mem = s.mem ∧ t.acc = s.acc ∧ t.cursor = s.cursor ∧ t.out = s.out

/-- JUMP (R100): cell 99 becomes 800 + c + 1 for the JUMP's own cell c and the pc becomes `a`; the saved word is itself
a JUMP to the cell after the call, or HALT when c = 99. The stored cell is 99, the address `jumpEffect` writes. -/
def Obligations.JumpSavesTheReturnWordAndBranches : Prop :=
  ∀ (s : State) (a : Nat), Ready s → s.mem.wf → a ≤ 99 →
    ∃ t, exec (.jump a) s = .next t ∧ t.mem.read 99 = 800 + (s.pc : Int) + 1 ∧
      (∀ b, b ≠ 99 → t.mem.read b = s.mem.read b) ∧ BranchesTo a s t ∧ t.ir = .opcode 8 ∧ KeepsTheRest s t ∧
      t.acc = s.acc ∧ t.cursor = s.cursor ∧ t.out = s.out ∧
      (s.pc ≤ 98 → decode (t.mem.read 99) = .ok (.jump (s.pc + 1))) ∧
      (s.pc = 99 → decode (t.mem.read 99) = .ok (.halt 0))

/-- HALT (R101): HALTED with HALT_INSTR and the universal increment, at cell 99 too; the address field is ignored and
nothing else changes. -/
def Obligations.HaltStopsTheEngine : Prop :=
  ∀ (s : State) (a : Nat), Ready s →
    exec (.halt a) s =
      .next { s with ir := .opcode 9, pc := s.pc + 1, runState := .halted, haltCause := .haltInstr }

/-- The unrecognised word (R102): HALTED with UNKNOWN_OPCODE, ir UNKNOWN and the universal increment; no fault. -/
def Obligations.UnrecognisedWordHalts : Prop :=
  ∀ (s : State) (w : Int), Ready s →
    exec (.unrecognised w) s =
      .next { s with ir := .unknown, pc := s.pc + 1, runState := .halted, haltCause := .unknownOpcode }

/-- A word in -99..-1 (R59 (d), R82): NEGATIVE_WORD with no other change in mode FAULT, as an unrecognised word in mode
HALT. -/
def Obligations.RefusedNegativeWordFaultsOrHalts : Prop :=
  ∀ (s : State) (w : Int), Ready s →
    (s.cfg.decodeNeg = .fault → exec (.refusedNegative w) s = .next (faulted s .negativeWord)) ∧
    (s.cfg.decodeNeg = .halt →
      exec (.refusedNegative w) s =
        .next { s with ir := .unknown, pc := s.pc + 1, runState := .halted, haltCause := .unknownOpcode })

/-- ACC_UNWRITTEN (R107): the five readers of the accumulator raise it while it is NONE (SHIFT once its code is legal);
nothing else ever does; an accumulator that holds a value never becomes NONE again; and a run that begins with a
written accumulator, as one with ACC_INIT an integer does, never raises it. -/
def Obligations.ReadingAnUnwrittenAccumulatorFaults : Prop :=
  (∀ (s : State) (a : Nat), Ready s → a ≤ 99 → s.acc = none →
    exec (.add a) s = .next (faulted s .accUnwritten) ∧ exec (.sub a) s = .next (faulted s .accUnwritten) ∧
    exec (.store a) s = .next (faulted s .accUnwritten) ∧ exec (.test a) s = .next (faulted s .accUnwritten) ∧
    (0 ≤ s.mem.read a → s.mem.read a ≤ 99 → exec (.shift a) s = .next (faulted s .accUnwritten))) ∧
  (∀ (i : Instr) (s t : State), exec i s = .next t → s.faultCode ≠ .accUnwritten → t.faultCode = .accUnwritten →
    s.acc = none ∧ readsAcc i = true) ∧
  (∀ (i : Instr) (s t : State), exec i s = .next t → s.acc ≠ none → t.acc ≠ none) ∧
  ∀ s t : State, Steps s t → s.acc ≠ none → s.faultCode ≠ .accUnwritten → t.faultCode ≠ .accUnwritten

/-! ### The primitives -/

/-- MemRead (R38): the address guard, else the cell, with no side effect. -/
def Obligations.MemReadGuardsTheAddress : Prop :=
  ∀ (s : State) (a : Nat),
    (99 < a → memRead s a = .error (.addressRange a)) ∧ (a ≤ 99 → memRead s a = .ok (s.mem.read a))

/-- MemWrite (R39): the address guard, then the range check, else exactly one cell takes the value, and the memory keeps
its canonical form. -/
def Obligations.MemWriteWritesOneWholeCell : Prop :=
  ∀ (s : State) (a : Nat) (v : Int), s.mem.wf →
    (99 < a → memWrite s a v = .error (.addressRange a)) ∧
    (a ≤ 99 → ¬ inCell v → memWrite s a v = .error (.cellRange a v)) ∧
    (a ≤ 99 → inCell v →
      ∃ t, memWrite s a v = .ok t ∧ t.mem.read a = v ∧ (∀ b, b ≠ a → t.mem.read b = s.mem.read b) ∧ t.mem.wf ∧
        { t with mem := s.mem } = s)

/-- DeckRead (R41): the next value with the cursor advanced; past the deck DECK_EXHAUSTED, or 0 with the cursor
advanced in mode ZERO. -/
def Obligations.DeckReadTakesTheNextValue : Prop :=
  ∀ (s : State),
    (∀ v, s.deck[s.cursor]? = some v → deckRead s = .ok (v, { s with cursor := s.cursor + 1 })) ∧
    (s.deck.length ≤ s.cursor → s.cfg.deckExhausted = .fault → deckRead s = .error (.deckExhausted s.cursor)) ∧
    (s.deck.length ≤ s.cursor → s.cfg.deckExhausted = .zero →
      deckRead s = .ok (0, { s with cursor := s.cursor + 1 }))

/-! ### Decoding and encoding -/

/-- Decoding recovers every well-formed instruction from its word, with every operand it can have (R62). -/
def Obligations.DecodeOfEncodeIsTheInstruction : Prop :=
  ∀ i : Instr, i.wellFormed = true → decode (encode i) = .ok i

/-- Every cell value decodes, to a well-formed instruction whose word it is (R59, R62). That no other integer decodes is
the model's choice (log entry 8): R59 speaks of the cell range only. -/
def Obligations.EveryCellValueDecodesToItsInstruction : Prop :=
  (∀ w : Int, inCell w → ∃ i, decode w = .ok i ∧ i.wellFormed = true ∧ encode i = w) ∧
    ∀ (w : Int) (i : Instr), decode w = .ok i → inCell w

/-- The classification of every cell value (R59, R61), and what becomes of case (d) in both modes. -/
def Obligations.DecoderClassifiesEveryCellValue : Prop :=
  (∀ a : Nat, a ≤ 99 →
    decode (a : Int) = .ok (.input a) ∧ decode (100 + (a : Int)) = .ok (.load a) ∧
    decode (200 + (a : Int)) = .ok (.add a) ∧ decode (300 + (a : Int)) = .ok (.test a) ∧
    decode (400 + (a : Int)) = .ok (.shift a) ∧ decode (500 + (a : Int)) = .ok (.output a) ∧
    decode (600 + (a : Int)) = .ok (.store a) ∧ decode (700 + (a : Int)) = .ok (.sub a) ∧
    decode (800 + (a : Int)) = .ok (.jump a) ∧ decode (900 + (a : Int)) = .ok (.halt a)) ∧
  (∀ w : Int, 1000 ≤ w → w ≤ 32767 → decode w = .ok (.unrecognised w)) ∧
  (∀ w : Int, -32768 ≤ w → w ≤ -100 → decode w = .ok (.unrecognised w)) ∧
  ∀ w : Int, -99 ≤ w → w ≤ -1 →
    decode w = .ok (.refusedNegative w) ∧
    (∀ s : State, s.cfg.decodeNeg = .fault → exec (.refusedNegative w) s = .next (faulted s .negativeWord)) ∧
    ∀ s : State, s.cfg.decodeNeg = .halt → exec (.refusedNegative w) s = exec (.unrecognised w) s

/-- A few words written out from the spec's own examples (95_test_vectors.md E2 and 2.1). -/
def Obligations.SampleWordsDecodeAsTheSpecSays : Prop :=
  decode 105 = .ok (.load 5) ∧ decode 699 = .ok (.store 99) ∧ decode 0 = .ok (.input 0) ∧
    decode 816 = .ok (.jump 16) ∧ decode 955 = .ok (.halt 55) ∧ decode 1000 = .ok (.unrecognised 1000) ∧
    decode (-100) = .ok (.unrecognised (-100)) ∧ decode (-1) = .ok (.refusedNegative (-1))

/-! ### The step -/

/-- A step of a RUNNING engine is the meaning of the instruction fetched at pc, and nothing around it (R80 to R83). -/
def Obligations.StepRunsTheFetchedInstruction : Prop :=
  ∀ (s : State) (i : Instr), Ready s → decode (s.mem.read s.pc) = .ok i → step s = exec i s

/-- A RUNNING engine always has a step, of exactly one instruction; a stopped one has none (R80). -/
def Obligations.RunningEngineAlwaysHasAStep : Prop :=
  (∀ s : State, s.Inv → s.runState = .running →
    ∃ i t, decode (s.mem.read s.pc) = .ok i ∧ i.wellFormed = true ∧ step s = exec i s ∧ step s = .next t) ∧
  (∀ s : State, s.runState = .halted → step s = .fault .runHalted) ∧
  ∀ s : State, s.runState = .faulted → step s = .fault .runFaulted

/-- Taking a fault (R110, R111): a step that raises does exactly two things, stays at its pc, and no step follows; and a
step ends in FAULTED only so. -/
def Obligations.FaultsArePreciseAndTerminal : Prop :=
  (∀ (s : State) (r : Raise), s.runState = .running → faultInfo s = some r →
    step s = .next (faulted s r.code) ∧ step (faulted s r.code) = .fault .runFaulted) ∧
  ∀ s t : State, step s = .next t → t.runState = .faulted →
    ∃ r, faultInfo s = some r ∧ t = faulted s r.code

/-- The information of a fault is not stored and can be recomputed from the faulted state (R106). -/
def Obligations.FaultInformationCanBeRecomputed : Prop :=
  ∀ (s t : State) (r : Raise), step s = .next t → faultInfo s = some r →
    t.faultCode = r.code ∧ t.faultCode ≠ .none ∧ faultInfo t = some r

/-- Which instructions raise which fault (R106, column "raised by"). -/
def Obligations.FaultsAreRaisedOnlyByTheirInstructions : Prop :=
  ∀ (i : Instr) (s t : State), i.wellFormed = true → Ready s → exec i s = .next t → t.runState = .faulted →
    (t.faultCode = .deckExhausted ∧ (∃ a, i = .input a)) ∨
    (t.faultCode = .accUnwritten ∧ readsAcc i = true) ∨
    (t.faultCode = .accOverflow ∧ ∃ a, i = .add a ∨ i = .sub a ∨ i = .shift a) ∨
    (t.faultCode = .cellRange ∧ ∃ a, i = .input a ∨ i = .store a) ∨
    (t.faultCode = .negativeWord ∧ ∃ w, i = .refusedNegative w) ∨
    (t.faultCode = .shiftCodeRange ∧ ∃ a, i = .shift a) ∨
    (t.faultCode = .shiftRounding ∧ ∃ a, i = .shift a)

/-- The pc update and the halting check of every step that completes (R84, R85): an instruction's own halt cause
outranks PC_OVERFLOW, and pc never passes 100. -/
def Obligations.CompletedStepUpdatesPcAndChecksForTheEnd : Prop :=
  ∀ (i : Instr) (s t : State), i.wellFormed = true → Ready s → exec i s = .next t → t.runState ≠ .faulted →
    t.pc = (branchTarget i s).getD (s.pc + 1) ∧ t.pc ≤ 100 ∧
    (haltRequest i ≠ .none → t.runState = .halted ∧ t.haltCause = haltRequest i) ∧
    (haltRequest i = .none → t.pc = 100 → t.runState = .halted ∧ t.haltCause = .pcOverflow) ∧
    (haltRequest i = .none → t.pc ≠ 100 → t.runState = .running ∧ t.haltCause = s.haltCause)

/-- Every step keeps the invariant of the engine's states: legal parameters, canonical memory of 100 cell values, the
accumulator in its range, pc in 0..99 until HALTED and at most 100, a halt cause exactly in HALTED, a fault code exactly
in FAULTED, the cursor within the deck in mode FAULT, output of cell values (R20, R22, R24, R29, R30, R34, R35, R87). -/
def Obligations.StepKeepsTheInvariant : Prop :=
  ∀ s t : State, s.Inv → step s = .next t → t.Inv

/-- The invariant holds after reset. -/
def Obligations.ResetMeetsTheInvariant : Prop := State.reset.Inv

/-- The invariant holds at the start of every run whose host keeps its duties (R126, R128). -/
def Obligations.StartMeetsTheInvariant : Prop :=
  ∀ (cfg : Config) (image deck : List Int), configOk cfg → hostDuty image deck → (start cfg image deck).Inv

/-- `start` (R123, R127): every piece of state at its reset value; cell 0 is seeded with 1 whatever the image holds. -/
def Obligations.StartSetsEveryPieceOfState : Prop :=
  ∀ (cfg : Config) (image deck : List Int), hostDuty image deck →
    (∀ a, a ≤ 99 → (start cfg image deck).mem.read a = if a = 0 then 1 else image.getD a 0) ∧
    (start cfg image deck).acc = cfg.accInit ∧ (start cfg image deck).pc = 10 ∧ (start cfg image deck).ir = .none ∧
    (start cfg image deck).runState = .running ∧ (start cfg image deck).haltCause = .none ∧
    (start cfg image deck).faultCode = .none ∧ (start cfg image deck).deck = deck ∧
    (start cfg image deck).cursor = 0 ∧ (start cfg image deck).out = [] ∧ (start cfg image deck).cfg = cfg

/-- State.reset is the start of the run with the default parameters, the all-zero image and the empty deck. The image
and the deck are the model's choice (log entries 2 and 3), the rest is R123. -/
def Obligations.ResetIsTheStartOfTheEmptyRun : Prop :=
  State.reset = start {} (List.replicate 100 0) []

/-! ### Rules about every instruction -/

/-- Who writes and who reads the accumulator (R22): only LOAD, ADD, SUB and SHIFT change it, only LOAD fills a NONE, and
what the other instructions do does not depend on it. -/
def Obligations.AccumulatorIsTouchedOnlyAsListed : Prop :=
  ∀ (i : Instr) (s t : State), exec i s = .next t →
    (writesAcc i = false → t.acc = s.acc) ∧
    (s.acc = none → t.acc ≠ none → ∃ a, i = .load a) ∧
    (readsAcc i = false → ∀ x, ∃ u, exec i { s with acc := x } = .next u ∧ { u with acc := t.acc } = t)

/-- Only IN moves the cursor, by one; only OUT changes the output, by appending its cell; the deck and the parameters
never change (R33, R34, R35). -/
def Obligations.DeckCursorAndOutputChangeOnlyAsListed : Prop :=
  ∀ (i : Instr) (s t : State), exec i s = .next t →
    t.cfg = s.cfg ∧ t.deck = s.deck ∧
    (t.cursor = s.cursor ∨ t.cursor = s.cursor + 1 ∧ ∃ a, i = .input a) ∧
    (t.out = s.out ∨ ∃ a, i = .output a ∧ t.out = s.out ++ [s.mem.read a])

/-- Every cell but the one an instruction stores to reads as before (R46, R47): no instruction writes a second cell. -/
def Obligations.NoOtherCellIsWritten : Prop :=
  ∀ (i : Instr) (s t : State) (b : Nat), exec i s = .next t → storedCell i ≠ some b → t.mem.read b = s.mem.read b

/-- No instruction reads ir, halt_cause or fault_code (R27, R31): a step does the same whatever they hold. -/
def Obligations.StatusRegistersAreNeverRead : Prop :=
  ∀ (s t : State) (x : Ir) (k : HaltCause) (f : FaultCode), step s = .next t →
    ∃ u, step { s with ir := x, haltCause := k, faultCode := f } = .next u ∧
      { u with ir := t.ir, haltCause := t.haltCause, faultCode := t.faultCode } = t

/-- A step reads no cell but those R46 lists for it: with any other memory that agrees on them it does the same, writes
the same value to the same cell, and leaves the rest of that memory alone. -/
def Obligations.StepDependsOnlyOnTheCellsItReads : Prop :=
  ∀ (s t : State) (m : Memory), Ready s → s.mem.wf → m.wf →
    (∀ a, Transaction.memRead a ∈ stepTransactions s → m.read a = s.mem.read a) → step s = .next t →
    ∃ u, step { s with mem := m } = .next u ∧ { u with mem := t.mem } = t ∧
      (t.runState = .faulted → u.mem = m ∧ t.mem = s.mem) ∧
      (t.runState ≠ .faulted → ∀ b,
        (Transaction.memWrite b ∈ stepTransactions s → u.mem.read b = t.mem.read b) ∧
        (Transaction.memWrite b ∉ stepTransactions s → u.mem.read b = m.read b ∧ t.mem.read b = s.mem.read b))

/-- ADDRESS_RANGE never fires (R40). -/
def Obligations.AddressRangeNeverFires : Prop :=
  ∀ s t : State, s.Inv → step s = .next t → t.faultCode ≠ .addressRange

/-- HALTED and FAULTED are permanent for the run (R28, R122). -/
def Obligations.StoppedRunsStayStopped : Prop :=
  ∀ s t : State, Steps s t → s.runState ≠ .running → t = s

/-- The defaults are conservative (R108, D2, D3, D6, D8, D10): where a step under them does not fault, the same step
under any other resolution of the open choices does the same; and so for whole runs. -/
def Obligations.UnfaultedStepsAgreeUnderEveryResolution : Prop :=
  (∀ s s' t : State, AgreesUpToChoices s s' → step s = .next t → t.runState ≠ .faulted →
    ∃ t', step s' = .next t' ∧ AgreesUpToChoices t t') ∧
  ∀ s s' t : State, AgreesUpToChoices s s' → Steps s t → t.runState ≠ .faulted →
    ∃ t', Steps s' t' ∧ AgreesUpToChoices t t'

/-! ### Control transfer and self-modification -/

/-- A JUMP to its own cell never ends (R88), below cell 99: it always has a next state; at cell 99 it overwrites itself with HALT and ends (R100). -/
def Obligations.JumpToItselfNeverEndsBelowCell99 : Prop :=
  (∀ s : State, Ready s → s.pc ≤ 98 → s.mem.read s.pc = 800 + (s.pc : Int) → NeverEnds s) ∧
  ∀ s : State, Ready s → s.mem.wf → s.pc = 99 → s.mem.read 99 = 899 →
    ∃ t, EndsIn s t ∧ GoodEnd t ∧ t.haltCause = .haltInstr ∧ t.pc = 100

/-- A JUMP 99 does not return to the caller (R100, R103, C4): it continues at the cell after itself, with 900 in
cell 99. -/
def Obligations.JumpThroughCell99DoesNotReturn : Prop :=
  ∀ s : State, Ready s → s.mem.wf → s.pc ≤ 98 → s.mem.read s.pc = 899 →
    ∃ t u, step s = .next t ∧ t.pc = 99 ∧ t.mem.read 99 = 800 + (s.pc : Int) + 1 ∧
      step t = .next u ∧ u.pc = s.pc + 1 ∧ u.mem.read 99 = 900 ∧ u.runState = .running

/-- A taken TEST 99 returns to the caller (R103 (b)): with the return word of a call from cell d - 1 in cell 99, two
steps reach cell d. -/
def Obligations.TakenTestOf99Returns : Prop :=
  ∀ (s : State) (x : Int) (d : Nat), Ready s → s.acc = some x → x < 0 → s.mem.read s.pc = 399 → d ≤ 99 →
    s.mem.read 99 = 800 + (d : Int) →
    ∃ t u, step s = .next t ∧ t.pc = 99 ∧ t.mem = s.mem ∧ step t = .next u ∧ u.pc = d ∧ u.runState = .running ∧
      u.acc = some x

/-- Fetch sees the write of the step before (R52): a word stored into the next cell is the next instruction; and a STORE
to its own cell is not affected by its own write. -/
def Obligations.StoredWordIsExecutedNext : Prop :=
  ∀ (s : State) (v : Int), Ready s → s.mem.wf → s.pc ≤ 98 → s.acc = some v → inCell v →
    (s.mem.read s.pc = 600 + ((s.pc : Int) + 1) →
      ∃ t, step s = .next t ∧ t.pc = s.pc + 1 ∧ ∀ i, decode v = .ok i → step t = exec i t) ∧
    (s.mem.read s.pc = 600 + (s.pc : Int) →
      ∃ t, step s = .next t ∧ t.pc = s.pc + 1 ∧ t.mem.read s.pc = v ∧ t.acc = some v)

/-! ### The host's side -/

/-- Output lines (R56): decimal digits without leading zeros, a leading minus sign exactly for negative values, no plus
sign, 0 for zero. `digitsValue` reads the digits back. -/
def Obligations.OutputLinesAreMinimalDecimal : Prop :=
  spellLine 0 = ['0'] ∧
  (∀ v : Int, 0 < v → ∃ d ds, spellLine v = d :: ds ∧ d ≠ '0' ∧ (∀ c ∈ d :: ds, isDigit c = true) ∧
    digitsValue 0 (d :: ds) = some v.toNat) ∧
  (∀ v : Int, v < 0 → spellLine v = '-' :: spellLine (-v)) ∧
  ∀ s : State, (outputLines s).length = s.out.length ∧
    ∀ (k : Nat) (v : Int), s.out[k]? = some v → (outputLines s)[k]? = some (spellLine v)

/-- The end observation (R131, R135): the whole tuple once run_state is not RUNNING (R54 (d)); while RUNNING there is no
END observation, which leaves out the output lines that the host may read as they are emitted (R55, R134). -/
def Obligations.EndStateIsReadableAfterTheRun : Prop :=
  ∀ s : State, (s.runState = .running → endObservation s = none) ∧
    (s.runState ≠ .running → endObservation s =
      some ⟨s.out, s.mem, s.acc, s.pc, s.ir, s.cursor, s.runState, s.haltCause, s.faultCode⟩)

/-- The numbers of the halt causes and fault codes (R29, R30). -/
def Obligations.StatusCodesAreNumberedAsListed : Prop :=
  [HaltCause.none, .haltInstr, .unknownOpcode, .pcOverflow].map HaltCause.number = [0, 1, 2, 3] ∧
  [FaultCode.none, .deckExhausted, .accUnwritten, .accOverflow, .cellRange, .negativeWord, .shiftCodeRange,
    .shiftRounding, .addressRange].map FaultCode.number = [0, 1, 2, 3, 4, 5, 6, 7, 8]

/-- Every image the assembler produces is one the host may load, and leaves cell 0 to the seed (R78, R126, C5). -/
def Obligations.AssembledImageIsLoadable : Prop :=
  ∀ (ac : AsmConfig) (text : List Char) (image : List Int), assemble ac text = .ok image →
    image.length = 100 ∧ (∀ v ∈ image, inCell v) ∧ image[0]? = some 0
end

