-- ==== Sys2Proof/Laws/Decode.lean ====
section
/-! SUPPORT. The decoder on each part of its range. -/

namespace Sys2Proof

theorem decode_of_nonneg {w : Int} (hw : inCell w) (h : 0 ≤ w) : decode w = .ok (decodeNonneg w.toNat) := by
  unfold decode
  rw [if_neg (by simpa using hw), if_pos h]

theorem decode_of_le {w : Int} (hw : inCell w) (h : w ≤ -100) : decode w = .ok (.unrecognised w) := by
  unfold decode
  rw [if_neg (by simpa using hw), if_neg (by omega), if_pos h]

theorem decode_of_refused {w : Int} (h : -99 ≤ w) (h' : w ≤ -1) : decode w = .ok (.refusedNegative w) := by
  unfold decode
  rw [if_neg (by simp only [inCell]; omega), if_neg (by omega), if_neg (by omega)]

theorem decode_of_not_inCell {w : Int} (h : ¬ inCell w) : decode w = .error (.notACellValue w) := by
  unfold decode
  rw [if_pos h]

/-- The fields of a word built from an opcode and a two-digit address (R62). -/
theorem fields_of_word (op : Nat) {a : Nat} (ha : a ≤ 99) :
    opcodeField (op * 100 + a) = op ∧ addressField (op * 100 + a) = a := by
  constructor
  · show (op * 100 + a) / 100 = op; omega
  · show (op * 100 + a) % 100 = a; omega

/-- A word of a known opcode decodes by its two fields. -/
theorem decode_word {op a : Nat} (hop : op ≤ 9) (ha : a ≤ 99) {w : Int} (hw : w = 100 * (op : Int) + (a : Int)) :
    decode w = .ok (decodeFields op a (op * 100 + a)) := by
  have hn : w.toNat = op * 100 + a := by omega
  rw [decode_of_nonneg (by simp only [inCell]; omega) (by omega), hn, decodeNonneg, (fields_of_word op ha).1,
    (fields_of_word op ha).2]

/-- An opcode above 9 is unrecognised. -/
theorem decodeFields_of_ge {op : Nat} (h : 10 ≤ op) (a w : Nat) : decodeFields op a w = .unrecognised (w : Int) := by
  obtain ⟨k, rfl⟩ := Nat.exists_eq_add_of_le' h
  rfl

end Sys2Proof
end

