-- ==== Sys2Proof/Laws/Memory.lean ====
section
/-! SUPPORT. The laws of memory: read after write, and every operation keeps the canonical form. -/

namespace Sys2Proof.Machine

/-- A cell whose address lies below every listed address reads as unlisted. -/
theorem Memory.read_of_lt {m : Memory} {a : Nat} (h : ∀ c ∈ m, a < c.1) : m.read a = unlisted a := by
  induction m with
  | nil => rfl
  | cons c m ih =>
    obtain ⟨b, u⟩ := c
    have hb : a < b := h (b, u) (by simp)
    simp [Memory.read, show a ≠ b by omega, ih (fun c hc => h c (by simp [hc]))]

/-- A write leaves every other cell alone, on any list. -/
theorem Memory.read_write_other {m : Memory} {a b : Nat} (v : Int) (h : b ≠ a) :
    (m.write a v).read b = m.read b := by
  induction m with
  | nil => by_cases hv : v = unlisted a <;> simp [Memory.write, Memory.read, hv, h]
  | cons c m ih =>
    obtain ⟨c, u⟩ := c
    by_cases h1 : a < c
    · by_cases hv : v = unlisted a <;> simp [Memory.write, Memory.read, h1, hv, h]
    · by_cases h2 : a = c
      · subst h2
        by_cases hv : v = unlisted a <;> simp [Memory.write, Memory.read, hv, h]
      · simp [Memory.write, Memory.read, h1, h2, ih]

/-- A cell reads as the value last written to it. -/
theorem Memory.read_write_same {m : Memory} (hm : m.wf) (a : Nat) (v : Int) : (m.write a v).read a = v := by
  obtain ⟨hs, -⟩ := hm
  induction m with
  | nil => by_cases hv : v = unlisted a <;> simp [Memory.write, Memory.read, hv]
  | cons c m ih =>
    obtain ⟨c, u⟩ := c
    rw [List.pairwise_cons] at hs
    obtain ⟨hc, hs⟩ := hs
    by_cases h1 : a < c
    · by_cases hv : v = unlisted a
      · have hm' : Memory.read m a = unlisted a := Memory.read_of_lt (m := m) (fun d hd => by have := hc d hd; simp at this; omega)
        simp [Memory.write, Memory.read, h1, hv, show a ≠ c by omega, hm']
      · simp [Memory.write, Memory.read, h1, hv]
    · by_cases h2 : a = c
      · subst h2
        by_cases hv : v = unlisted a
        · simp [Memory.write, hv, Memory.read_of_lt (m := m) (a := a) (fun d hd => hc d hd)]
        · simp [Memory.write, Memory.read, hv]
      · simp [Memory.write, Memory.read, h1, h2, ih hs]

/-- Every entry after a write was there before or is the one written. -/
theorem Memory.mem_write {m : Memory} {a : Nat} {v : Int} {c : Nat × Int} (h : c ∈ m.write a v) :
    c ∈ m ∨ (c = (a, v) ∧ v ≠ unlisted a) := by
  induction m with
  | nil => by_cases hv : v = unlisted a <;> simp_all [Memory.write]
  | cons d m ih =>
    obtain ⟨b, u⟩ := d
    simp only [Memory.write] at h
    split at h
    · split at h
      · exact .inl h
      · rcases List.mem_cons.1 h with rfl | h
        · exact .inr ⟨rfl, by assumption⟩
        · exact .inl h
    · split at h
      · split at h
        · exact .inl (List.mem_cons_of_mem _ h)
        · rcases List.mem_cons.1 h with rfl | h
          · exact .inr ⟨rfl, by assumption⟩
          · exact .inl (List.mem_cons_of_mem _ h)
      · rcases List.mem_cons.1 h with rfl | h
        · exact .inl (by simp)
        · rcases ih h with h | h
          · exact .inl (List.mem_cons_of_mem _ h)
          · exact .inr h

/-- A write of a cell value to one of the 100 cells keeps the canonical form. -/
theorem Memory.write_wf {m : Memory} {a : Nat} {v : Int} (hm : m.wf) (ha : a ≤ 99) (hv : inCell v) :
    (m.write a v).wf := by
  obtain ⟨hs, he⟩ := hm
  refine ⟨?_, fun c hc => ?_⟩
  · clear he
    induction m with
    | nil => by_cases h : v = unlisted a <;> simp [Memory.write, h]
    | cons d m ih =>
      obtain ⟨b, u⟩ := d
      have hs' := hs
      rw [List.pairwise_cons] at hs
      obtain ⟨hb, hs⟩ := hs
      simp only [Memory.write]
      split
      · split
        · exact hs'
        · refine List.pairwise_cons.2 ⟨fun c hc => ?_, hs'⟩
          rcases List.mem_cons.1 hc with rfl | hc
          · assumption
          · have := hb c hc
            simp at this ⊢
            omega
      · split
        · subst_vars
          split
          · exact hs
          · exact List.pairwise_cons.2 ⟨hb, hs⟩
        · refine List.pairwise_cons.2 ⟨fun c hc => ?_, ih hs⟩
          rcases Memory.mem_write hc with hc | ⟨rfl, -⟩
          · exact hb c hc
          · simp; omega
  · rcases Memory.mem_write hc with hc | ⟨rfl, h⟩
    · exact he c hc
    · exact ⟨ha, hv, h⟩

/-- A canonical memory gives every cell a cell value. -/
theorem Memory.read_inCell {m : Memory} (hm : m.wf) (a : Nat) : inCell (m.read a) := by
  obtain ⟨-, he⟩ := hm
  induction m with
  | nil => by_cases h : a = 0 <;> simp [Memory.read, unlisted, h, inCell]
  | cons d m ih =>
    obtain ⟨b, u⟩ := d
    have hm' := ih (fun c hc => he c (List.mem_cons_of_mem _ hc))
    have hu : inCell u := (he (b, u) (by simp)).2.1
    simp only [Memory.read]
    split
    · exact hu
    · exact hm'

/-- Two canonical memories that read alike are the same list. -/
theorem Memory.ext_of_read {m n : Memory} (hm : m.wf) (hn : n.wf) (h : ∀ a, m.read a = n.read a) : m = n := by
  obtain ⟨sm, em⟩ := hm
  obtain ⟨sn, en⟩ := hn
  induction m generalizing n with
  | nil =>
    cases n with
    | nil => rfl
    | cons d n =>
      obtain ⟨b, u⟩ := d
      have := h b
      simp [Memory.read] at this
      exact absurd this.symm (en (b, u) (by simp)).2.2
  | cons c m ih =>
    obtain ⟨a, v⟩ := c
    rw [List.pairwise_cons] at sm
    cases n with
    | nil =>
      have := h a
      simp [Memory.read] at this
      exact absurd this (em (a, v) (by simp)).2.2
    | cons d n =>
      obtain ⟨b, u⟩ := d
      rw [List.pairwise_cons] at sn
      have lm : ∀ x, x ≤ a → Memory.read m x = unlisted x := fun x hx =>
        Memory.read_of_lt (m := m) (fun c hc => lt_of_le_of_lt hx (sm.1 c hc))
      have ln : ∀ x, x ≤ b → Memory.read n x = unlisted x := fun x hx =>
        Memory.read_of_lt (m := n) (fun c hc => lt_of_le_of_lt hx (sn.1 c hc))
      have hv : v ≠ unlisted a := (em (a, v) (by simp)).2.2
      have hu : u ≠ unlisted b := (en (b, u) (by simp)).2.2
      have hab : a = b := by
        rcases lt_trichotomy a b with hlt | heq | hgt
        · have := h a
          simp [Memory.read, show a ≠ b by omega, ln a (by omega)] at this
          exact absurd this hv
        · exact heq
        · have := h b
          simp [Memory.read, show b ≠ a by omega, lm b (by omega)] at this
          exact absurd this.symm hu
      subst hab
      have hvu : v = u := by simpa [Memory.read] using h a
      subst hvu
      congr 1
      refine ih (fun x => ?_) sm.2 (fun c hc => em c (List.mem_cons_of_mem _ hc)) sn.2
        (fun c hc => en c (List.mem_cons_of_mem _ hc))
      by_cases hx : x = a
      · rw [hx, lm a le_rfl, ln a le_rfl]
      · simpa [Memory.read, hx] using h x

/-- What a loaded image reads as. -/
theorem Memory.read_ofCells (vs : List Int) (a b : Nat) :
    (Memory.ofCells a vs).read b = if a ≤ b ∧ b < a + vs.length then vs.getD (b - a) 0 else unlisted b := by
  induction vs generalizing a with
  | nil => simp [Memory.ofCells, Memory.read]
  | cons v vs ih =>
    by_cases hb : b = a
    · subst hb
      have hl : (Memory.ofCells (b + 1) vs).read b = unlisted b := by rw [ih]; simp
      by_cases hv : v = unlisted b <;> simp [Memory.ofCells, Memory.read, hv, hl]
    · have hrest : (Memory.ofCells a (v :: vs)).read b = (Memory.ofCells (a + 1) vs).read b := by
        by_cases hv : v = unlisted a <;> simp [Memory.ofCells, Memory.read, hv, hb]
      rw [hrest, ih]
      by_cases hin : a + 1 ≤ b ∧ b < a + 1 + vs.length
      · have h2 : a ≤ b ∧ b < a + (v :: vs).length := by simp; omega
        rw [if_pos hin, if_pos h2, show b - a = (b - (a + 1)) + 1 by omega]
        simp
      · have h2 : ¬ (a ≤ b ∧ b < a + (v :: vs).length) := by simp; omega
        rw [if_neg hin, if_neg h2]

/-- A loaded image of cell values is canonical. -/
theorem Memory.ofCells_wf {vs : List Int} {a : Nat} (h : ∀ v ∈ vs, inCell v) (ha : a + vs.length ≤ 100) :
    (Memory.ofCells a vs).wf := by
  have key : ∀ (vs : List Int) (a : Nat), (∀ v ∈ vs, inCell v) → a + vs.length ≤ 100 →
      (Memory.ofCells a vs).wf ∧ ∀ c ∈ Memory.ofCells a vs, a ≤ c.1 := by
    intro vs
    induction vs with
    | nil => intro a _ _; simp [Memory.ofCells, Memory.wf]
    | cons v vs ih =>
      intro a h ha
      simp only [List.length_cons] at ha
      obtain ⟨⟨hs, he⟩, hl⟩ := ih (a + 1) (fun w hw => h w (by simp [hw])) (by omega)
      simp only [Memory.ofCells]
      split
      · exact ⟨⟨hs, he⟩, fun c hc => by have := hl c hc; omega⟩
      · rename_i hv
        refine ⟨⟨List.pairwise_cons.2 ⟨fun c hc => ?_, hs⟩, fun c hc => ?_⟩, fun c hc => ?_⟩
        · have := hl c hc; simp; omega
        · rcases List.mem_cons.1 hc with rfl | hc
          · exact ⟨by simp; omega, h v (by simp), hv⟩
          · exact he c hc
        · rcases List.mem_cons.1 hc with rfl | hc
          · simp
          · have := hl c hc; omega
  exact (key vs a h ha).1

/-- Memory after reset is canonical. -/
theorem State.reset_mem_wf : State.reset.mem.wf := by decide

end Sys2Proof.Machine
end

