-- ==== Sys2Proof/Laws/State.lean ====
section
/-! SUPPORT. One lemma per field per update of State, each true by definition, so that no later proof unfolds an
update. -/

namespace Sys2Proof.Machine

variable (s : State)

/-! ### State.setAcc -/

@[simp] theorem State.setAcc_cfg (v : Int) : (s.setAcc v).cfg = s.cfg := rfl
@[simp] theorem State.setAcc_mem (v : Int) : (s.setAcc v).mem = s.mem := rfl
@[simp] theorem State.setAcc_acc (v : Int) : (s.setAcc v).acc = some v := rfl
@[simp] theorem State.setAcc_pc (v : Int) : (s.setAcc v).pc = s.pc := rfl
@[simp] theorem State.setAcc_ir (v : Int) : (s.setAcc v).ir = s.ir := rfl
@[simp] theorem State.setAcc_runState (v : Int) : (s.setAcc v).runState = s.runState := rfl
@[simp] theorem State.setAcc_haltCause (v : Int) : (s.setAcc v).haltCause = s.haltCause := rfl
@[simp] theorem State.setAcc_faultCode (v : Int) : (s.setAcc v).faultCode = s.faultCode := rfl
@[simp] theorem State.setAcc_deck (v : Int) : (s.setAcc v).deck = s.deck := rfl
@[simp] theorem State.setAcc_cursor (v : Int) : (s.setAcc v).cursor = s.cursor := rfl
@[simp] theorem State.setAcc_out (v : Int) : (s.setAcc v).out = s.out := rfl

/-! ### State.setMem -/

@[simp] theorem State.setMem_cfg (m : Memory) : (s.setMem m).cfg = s.cfg := rfl
@[simp] theorem State.setMem_mem (m : Memory) : (s.setMem m).mem = m := rfl
@[simp] theorem State.setMem_acc (m : Memory) : (s.setMem m).acc = s.acc := rfl
@[simp] theorem State.setMem_pc (m : Memory) : (s.setMem m).pc = s.pc := rfl
@[simp] theorem State.setMem_ir (m : Memory) : (s.setMem m).ir = s.ir := rfl
@[simp] theorem State.setMem_runState (m : Memory) : (s.setMem m).runState = s.runState := rfl
@[simp] theorem State.setMem_haltCause (m : Memory) : (s.setMem m).haltCause = s.haltCause := rfl
@[simp] theorem State.setMem_faultCode (m : Memory) : (s.setMem m).faultCode = s.faultCode := rfl
@[simp] theorem State.setMem_deck (m : Memory) : (s.setMem m).deck = s.deck := rfl
@[simp] theorem State.setMem_cursor (m : Memory) : (s.setMem m).cursor = s.cursor := rfl
@[simp] theorem State.setMem_out (m : Memory) : (s.setMem m).out = s.out := rfl

/-! ### State.advanceCursor -/

@[simp] theorem State.advanceCursor_cfg : s.advanceCursor.cfg = s.cfg := rfl
@[simp] theorem State.advanceCursor_mem : s.advanceCursor.mem = s.mem := rfl
@[simp] theorem State.advanceCursor_acc : s.advanceCursor.acc = s.acc := rfl
@[simp] theorem State.advanceCursor_pc : s.advanceCursor.pc = s.pc := rfl
@[simp] theorem State.advanceCursor_ir : s.advanceCursor.ir = s.ir := rfl
@[simp] theorem State.advanceCursor_runState : s.advanceCursor.runState = s.runState := rfl
@[simp] theorem State.advanceCursor_haltCause : s.advanceCursor.haltCause = s.haltCause := rfl
@[simp] theorem State.advanceCursor_faultCode : s.advanceCursor.faultCode = s.faultCode := rfl
@[simp] theorem State.advanceCursor_deck : s.advanceCursor.deck = s.deck := rfl
@[simp] theorem State.advanceCursor_cursor : s.advanceCursor.cursor = s.cursor + 1 := rfl
@[simp] theorem State.advanceCursor_out : s.advanceCursor.out = s.out := rfl

/-! ### State.outEmit -/

@[simp] theorem State.outEmit_cfg (v : Int) : (s.outEmit v).cfg = s.cfg := rfl
@[simp] theorem State.outEmit_mem (v : Int) : (s.outEmit v).mem = s.mem := rfl
@[simp] theorem State.outEmit_acc (v : Int) : (s.outEmit v).acc = s.acc := rfl
@[simp] theorem State.outEmit_pc (v : Int) : (s.outEmit v).pc = s.pc := rfl
@[simp] theorem State.outEmit_ir (v : Int) : (s.outEmit v).ir = s.ir := rfl
@[simp] theorem State.outEmit_runState (v : Int) : (s.outEmit v).runState = s.runState := rfl
@[simp] theorem State.outEmit_haltCause (v : Int) : (s.outEmit v).haltCause = s.haltCause := rfl
@[simp] theorem State.outEmit_faultCode (v : Int) : (s.outEmit v).faultCode = s.faultCode := rfl
@[simp] theorem State.outEmit_deck (v : Int) : (s.outEmit v).deck = s.deck := rfl
@[simp] theorem State.outEmit_cursor (v : Int) : (s.outEmit v).cursor = s.cursor := rfl
@[simp] theorem State.outEmit_out (v : Int) : (s.outEmit v).out = s.out ++ [v] := rfl

/-! ### State.retire -/

@[simp] theorem State.retire_cfg (o : Ir) (p : Nat) : (s.retire o p).cfg = s.cfg := rfl
@[simp] theorem State.retire_mem (o : Ir) (p : Nat) : (s.retire o p).mem = s.mem := rfl
@[simp] theorem State.retire_acc (o : Ir) (p : Nat) : (s.retire o p).acc = s.acc := rfl
@[simp] theorem State.retire_pc (o : Ir) (p : Nat) : (s.retire o p).pc = p := rfl
@[simp] theorem State.retire_ir (o : Ir) (p : Nat) : (s.retire o p).ir = o := rfl
@[simp] theorem State.retire_runState (o : Ir) (p : Nat) : (s.retire o p).runState = s.runState := rfl
@[simp] theorem State.retire_haltCause (o : Ir) (p : Nat) : (s.retire o p).haltCause = s.haltCause := rfl
@[simp] theorem State.retire_faultCode (o : Ir) (p : Nat) : (s.retire o p).faultCode = s.faultCode := rfl
@[simp] theorem State.retire_deck (o : Ir) (p : Nat) : (s.retire o p).deck = s.deck := rfl
@[simp] theorem State.retire_cursor (o : Ir) (p : Nat) : (s.retire o p).cursor = s.cursor := rfl
@[simp] theorem State.retire_out (o : Ir) (p : Nat) : (s.retire o p).out = s.out := rfl

/-! ### State.enterHalted -/

@[simp] theorem State.enterHalted_cfg (k : HaltCause) : (s.enterHalted k).cfg = s.cfg := rfl
@[simp] theorem State.enterHalted_mem (k : HaltCause) : (s.enterHalted k).mem = s.mem := rfl
@[simp] theorem State.enterHalted_acc (k : HaltCause) : (s.enterHalted k).acc = s.acc := rfl
@[simp] theorem State.enterHalted_pc (k : HaltCause) : (s.enterHalted k).pc = s.pc := rfl
@[simp] theorem State.enterHalted_ir (k : HaltCause) : (s.enterHalted k).ir = s.ir := rfl
@[simp] theorem State.enterHalted_runState (k : HaltCause) : (s.enterHalted k).runState = .halted := rfl
@[simp] theorem State.enterHalted_haltCause (k : HaltCause) : (s.enterHalted k).haltCause = k := rfl
@[simp] theorem State.enterHalted_faultCode (k : HaltCause) : (s.enterHalted k).faultCode = s.faultCode := rfl
@[simp] theorem State.enterHalted_deck (k : HaltCause) : (s.enterHalted k).deck = s.deck := rfl
@[simp] theorem State.enterHalted_cursor (k : HaltCause) : (s.enterHalted k).cursor = s.cursor := rfl
@[simp] theorem State.enterHalted_out (k : HaltCause) : (s.enterHalted k).out = s.out := rfl

/-! ### State.enterFaulted -/

@[simp] theorem State.enterFaulted_cfg (f : FaultCode) : (s.enterFaulted f).cfg = s.cfg := rfl
@[simp] theorem State.enterFaulted_mem (f : FaultCode) : (s.enterFaulted f).mem = s.mem := rfl
@[simp] theorem State.enterFaulted_acc (f : FaultCode) : (s.enterFaulted f).acc = s.acc := rfl
@[simp] theorem State.enterFaulted_pc (f : FaultCode) : (s.enterFaulted f).pc = s.pc := rfl
@[simp] theorem State.enterFaulted_ir (f : FaultCode) : (s.enterFaulted f).ir = s.ir := rfl
@[simp] theorem State.enterFaulted_runState (f : FaultCode) : (s.enterFaulted f).runState = .faulted := rfl
@[simp] theorem State.enterFaulted_haltCause (f : FaultCode) : (s.enterFaulted f).haltCause = s.haltCause := rfl
@[simp] theorem State.enterFaulted_faultCode (f : FaultCode) : (s.enterFaulted f).faultCode = f := rfl
@[simp] theorem State.enterFaulted_deck (f : FaultCode) : (s.enterFaulted f).deck = s.deck := rfl
@[simp] theorem State.enterFaulted_cursor (f : FaultCode) : (s.enterFaulted f).cursor = s.cursor := rfl
@[simp] theorem State.enterFaulted_out (f : FaultCode) : (s.enterFaulted f).out = s.out := rfl

/-- Two states with equal fields are equal. -/
theorem State.eq_of_fields {s t : State} (cfg : s.cfg = t.cfg) (mem : s.mem = t.mem) (acc : s.acc = t.acc)
    (pc : s.pc = t.pc) (ir : s.ir = t.ir) (runState : s.runState = t.runState) (haltCause : s.haltCause = t.haltCause)
    (faultCode : s.faultCode = t.faultCode) (deck : s.deck = t.deck) (cursor : s.cursor = t.cursor)
    (out : s.out = t.out) : s = t := by
  cases s; cases t; simp_all

end Sys2Proof.Machine
end

