-- ==== Sys2Proof/Laws/Ops.lean ====
section
/-! SUPPORT. One lemma per shared operation: everything it can do. -/

namespace Sys2Proof.Machine

theorem memRead_eq_ok_iff {s : State} {a : Nat} {v : Int} : memRead s a = .ok v ↔ a ≤ 99 ∧ s.mem.read a = v := by
  by_cases h : a ≤ 99 <;> simp [memRead, h]

@[simp] theorem memRead_of_le {s : State} {a : Nat} (h : a ≤ 99) : memRead s a = .ok (s.mem.read a) := by
  simp [memRead, h]

theorem memWrite_eq_ok_iff {s t : State} {a : Nat} {v : Int} :
    memWrite s a v = .ok t ↔ a ≤ 99 ∧ inCell v ∧ t = s.setMem (s.mem.write a v) := by
  by_cases h : a ≤ 99
  · by_cases hv : inCell v
    · rw [memWrite, if_pos h, if_pos hv, Except.ok.injEq]
      exact ⟨fun e => ⟨h, hv, e.symm⟩, fun e => e.2.2.symm⟩
    · rw [memWrite, if_pos h, if_neg hv]
      exact ⟨fun e => by simp at e, fun e => absurd e.2.1 hv⟩
  · simp [memWrite, h]

theorem memWrite_of_ok {s : State} {a : Nat} {v : Int} (h : a ≤ 99) (hv : inCell v) :
    memWrite s a v = .ok (s.setMem (s.mem.write a v)) := by
  rw [memWrite, if_pos h, if_pos hv]

theorem memWrite_of_not_inCell {s : State} {a : Nat} {v : Int} (h : a ≤ 99) (hv : ¬ inCell v) :
    memWrite s a v = .error (.cellRange a v) := by
  rw [memWrite, if_pos h, if_neg hv]

/-- What a DeckRead that raises nothing did: it took the next value, or 0 in mode ZERO, and advanced the cursor. -/
theorem deckRead_eq_ok {s t : State} {v : Int} (h : deckRead s = .ok (v, t)) :
    t = s.advanceCursor ∧
      (s.deck[s.cursor]? = some v ∨ (s.deck[s.cursor]? = none ∧ s.cfg.deckExhausted = .zero ∧ v = 0)) := by
  unfold deckRead at h
  split at h
  · simp_all
  · split at h <;> simp_all

@[simp] theorem accRead_of_some {s : State} {x : Int} (h : s.acc = some x) : accRead s = .ok x := by simp [accRead, h]

@[simp] theorem accRead_of_none {s : State} (h : s.acc = none) : accRead s = .error (.accUnwritten s.pc) := by
  simp [accRead, h]

theorem accRead_eq_ok_iff {s : State} {x : Int} : accRead s = .ok x ↔ s.acc = some x := by
  cases h : s.acc <;> simp [accRead, h]

theorem checkAcc_eq_ok_iff {c : Config} {v r : Int} : checkAcc c v = .ok r ↔ inAcc c v ∧ r = v := by
  by_cases h : inAcc c v
  · rw [checkAcc, if_pos h, Except.ok.injEq]
    exact ⟨fun e => ⟨h, e.symm⟩, fun e => e.2.symm⟩
  · rw [checkAcc, if_neg h]
    exact ⟨fun e => by simp at e, fun e => absurd e.1 h⟩

theorem checkAcc_of_inAcc {c : Config} {v : Int} (h : inAcc c v) : checkAcc c v = .ok v := by rw [checkAcc, if_pos h]

theorem checkAcc_of_not_inAcc {c : Config} {v : Int} (h : ¬ inAcc c v) : checkAcc c v = .error (.accOverflow v) := by
  rw [checkAcc, if_neg h]

/-! ### The halting check and the end of a step -/

/-- Nothing but `run_state` and `halt_cause` changes in the halting check. -/
theorem haltingCheck_frame (k : HaltCause) (s : State) :
    haltingCheck k s = { s with runState := (haltingCheck k s).runState, haltCause := (haltingCheck k s).haltCause } := by
  unfold haltingCheck
  cases k
  · show (if _ then _ else _) = _
    split <;> rfl
  all_goals rfl

theorem haltingCheck_none_of_lt {s : State} (h : s.pc ≤ 99) : haltingCheck .none s = s := by
  simp [haltingCheck, show ¬ 100 ≤ s.pc by omega]

theorem haltingCheck_none_of_ge {s : State} (h : 100 ≤ s.pc) : haltingCheck .none s = s.enterHalted .pcOverflow := by
  simp [haltingCheck, h]

@[simp] theorem haltingCheck_haltInstr (s : State) : haltingCheck .haltInstr s = s.enterHalted .haltInstr := rfl
@[simp] theorem haltingCheck_unknownOpcode (s : State) :
    haltingCheck .unknownOpcode s = s.enterHalted .unknownOpcode := rfl

@[simp] theorem completeStep_pc (op : Ir) (e : Effected) : (completeStep op e).pc = nextPc e := by
  rw [completeStep, haltingCheck_frame]; rfl
@[simp] theorem completeStep_ir (op : Ir) (e : Effected) : (completeStep op e).ir = op := by
  rw [completeStep, haltingCheck_frame]; rfl
@[simp] theorem completeStep_cfg (op : Ir) (e : Effected) : (completeStep op e).cfg = e.st.cfg := by
  rw [completeStep, haltingCheck_frame]; rfl
@[simp] theorem completeStep_mem (op : Ir) (e : Effected) : (completeStep op e).mem = e.st.mem := by
  rw [completeStep, haltingCheck_frame]; rfl
@[simp] theorem completeStep_acc (op : Ir) (e : Effected) : (completeStep op e).acc = e.st.acc := by
  rw [completeStep, haltingCheck_frame]; rfl
@[simp] theorem completeStep_faultCode (op : Ir) (e : Effected) : (completeStep op e).faultCode = e.st.faultCode := by
  rw [completeStep, haltingCheck_frame]; rfl
@[simp] theorem completeStep_deck (op : Ir) (e : Effected) : (completeStep op e).deck = e.st.deck := by
  rw [completeStep, haltingCheck_frame]; rfl
@[simp] theorem completeStep_cursor (op : Ir) (e : Effected) : (completeStep op e).cursor = e.st.cursor := by
  rw [completeStep, haltingCheck_frame]; rfl
@[simp] theorem completeStep_out (op : Ir) (e : Effected) : (completeStep op e).out = e.st.out := by
  rw [completeStep, haltingCheck_frame]; rfl

/-- `run_state` and `halt_cause` after a step whose effect asked for no halt. -/
theorem completeStep_status_of_none {op : Ir} {e : Effected} (h : e.halt = .none) :
    ((completeStep op e).runState = if 100 ≤ nextPc e then .halted else e.st.runState) ∧
      (completeStep op e).haltCause = if 100 ≤ nextPc e then .pcOverflow else e.st.haltCause := by
  rw [completeStep, h]
  by_cases hp : 100 ≤ nextPc e <;> simp [haltingCheck, hp]

/-- `run_state` and `halt_cause` after a step whose effect asked for a halt. -/
theorem completeStep_status_of_halt {op : Ir} {e : Effected} (h : e.halt ≠ .none) :
    (completeStep op e).runState = .halted ∧ (completeStep op e).haltCause = e.halt := by
  rw [completeStep]
  cases hk : e.halt <;> simp_all [haltingCheck]

/-- `run_state` after a completed step, in one expression (R85). -/
theorem completeStep_runState (op : Ir) (e : Effected) :
    (completeStep op e).runState = if e.halt ≠ .none ∨ 100 ≤ nextPc e then .halted else e.st.runState := by
  by_cases h : e.halt = .none
  · rw [(completeStep_status_of_none h).1]; simp [h]
  · rw [(completeStep_status_of_halt h).1]; simp [h]

/-- `halt_cause` after a completed step, in one expression (R85). -/
theorem completeStep_haltCause (op : Ir) (e : Effected) :
    (completeStep op e).haltCause =
      if e.halt ≠ .none then e.halt else if 100 ≤ nextPc e then .pcOverflow else e.st.haltCause := by
  by_cases h : e.halt = .none
  · rw [(completeStep_status_of_none h).2]; simp [h]
  · rw [(completeStep_status_of_halt h).2]; simp [h]

/-- A completed step never ends in FAULTED unless it began there. -/
theorem completeStep_runState_cases (op : Ir) (e : Effected) :
    (completeStep op e).runState = .halted ∨ (completeStep op e).runState = e.st.runState := by
  by_cases h : e.halt = .none
  · rw [(completeStep_status_of_none h).1]
    split
    · exact .inl rfl
    · exact .inr rfl
  · exact .inl (completeStep_status_of_halt h).1

/-- Taking a fault, field by field (R110, R111). -/
theorem takeFault_eq (s : State) (r : Raise) :
    takeFault s r = { s with runState := .faulted, faultCode := r.code } := rfl

/-- A raise always has a code other than NONE. -/
theorem Raise.code_ne_none (r : Raise) : r.code ≠ .none := by cases r <;> simp [Raise.code]

theorem finishStep_next (op : Ir) (s : State) (r : Except Raise Effected) : ∃ t, finishStep op s r = .next t := by
  cases r with
  | ok e => exact ⟨_, rfl⟩
  | error f => exact ⟨_, rfl⟩

/-- What the end of a step can be. -/
theorem finishStep_eq_next {op : Ir} {s t : State} {r : Except Raise Effected} (h : finishStep op s r = .next t) :
    (∃ e, r = .ok e ∧ t = completeStep op e) ∨ ∃ f, r = .error f ∧ t = takeFault s f := by
  cases r with
  | ok e => simp only [finishStep, Host.Outcome.next.injEq] at h; exact .inl ⟨e, rfl, h.symm⟩
  | error f => simp only [finishStep, Host.Outcome.next.injEq] at h; exact .inr ⟨f, rfl, h.symm⟩

end Sys2Proof.Machine
end

