-- ==== Sys2Proof/Laws/Exec.lean ====
section
/-! SUPPORT. What each effect, `exec` and `step` can do: one inversion lemma each. -/

namespace Sys2Proof.Machine

/-- Every meaning is the shared end of a step over the instruction's effect. -/
theorem exec_eq_finishStep (i : Instr) (s : State) : exec i s = finishStep (irAfter i) s (effectOf i s) := by
  cases i <;> rfl

/-- Every instruction ends in a next state, from every state. -/
theorem exec_next (i : Instr) (s : State) : ∃ t, exec i s = .next t := by
  rw [exec_eq_finishStep]; exact finishStep_next _ _ _

/-- `exec` completes the step with the effect, or takes the fault the effect raised. -/
theorem exec_eq_next {i : Instr} {s t : State} (h : exec i s = .next t) :
    (∃ e, effectOf i s = .ok e ∧ t = completeStep (irAfter i) e) ∨
      ∃ r, effectOf i s = .error r ∧ t = takeFault s r := by
  rw [exec_eq_finishStep] at h; exact finishStep_eq_next h

/-! ### The effects -/

theorem inputEffect_eq_ok {a : Nat} {s : State} {e : Effected} (h : inputEffect a s = .ok e) :
    ∃ v, (s.deck[s.cursor]? = some v ∨ (s.deck[s.cursor]? = none ∧ s.cfg.deckExhausted = .zero ∧ v = 0)) ∧
      a ≤ 99 ∧ inCell v ∧ e = { st := s.advanceCursor.setMem (s.mem.write a v) } := by
  simp only [inputEffect, bind, Except.bind] at h
  split at h
  · simp at h
  · rename_i p hd
    obtain ⟨v, s1⟩ := p
    obtain ⟨rfl, hv⟩ := deckRead_eq_ok hd
    split at h
    · simp at h
    · rename_i s2 hw
      obtain ⟨ha, hc, rfl⟩ := memWrite_eq_ok_iff.1 hw
      simp only [pure, Except.pure, Except.ok.injEq] at h
      exact ⟨v, hv, ha, hc, h.symm⟩

theorem outputEffect_eq_ok {a : Nat} {s : State} {e : Effected} (h : outputEffect a s = .ok e) :
    a ≤ 99 ∧ e = { st := s.outEmit (s.mem.read a) } := by
  by_cases ha : a ≤ 99
  · simp [outputEffect, bind, Except.bind, ha, pure, Except.pure] at h; exact ⟨ha, h.symm⟩
  · simp [outputEffect, bind, Except.bind, memRead, ha] at h

theorem loadEffect_eq_ok {a : Nat} {s : State} {e : Effected} (h : loadEffect a s = .ok e) :
    a ≤ 99 ∧ e = { st := s.setAcc (s.mem.read a) } := by
  by_cases ha : a ≤ 99
  · simp [loadEffect, bind, Except.bind, ha, pure, Except.pure] at h; exact ⟨ha, h.symm⟩
  · simp [loadEffect, bind, Except.bind, memRead, ha] at h

theorem addEffect_eq_ok {a : Nat} {s : State} {e : Effected} (h : addEffect a s = .ok e) :
    ∃ x, s.acc = some x ∧ a ≤ 99 ∧ inAcc s.cfg (x + s.mem.read a) ∧ e = { st := s.setAcc (x + s.mem.read a) } := by
  cases hx : s.acc with
  | none => simp [addEffect, bind, Except.bind, hx] at h
  | some x =>
    by_cases ha : a ≤ 99
    · by_cases hr : inAcc s.cfg (x + s.mem.read a)
      · simp [addEffect, bind, Except.bind, hx, ha, checkAcc_of_inAcc hr, pure, Except.pure] at h
        exact ⟨x, rfl, ha, hr, h.symm⟩
      · simp [addEffect, bind, Except.bind, hx, ha, checkAcc_of_not_inAcc hr] at h
    · simp [addEffect, bind, Except.bind, hx, memRead, ha] at h

theorem subEffect_eq_ok {a : Nat} {s : State} {e : Effected} (h : subEffect a s = .ok e) :
    ∃ x, s.acc = some x ∧ a ≤ 99 ∧ inAcc s.cfg (x - s.mem.read a) ∧ e = { st := s.setAcc (x - s.mem.read a) } := by
  cases hx : s.acc with
  | none => simp [subEffect, bind, Except.bind, hx] at h
  | some x =>
    by_cases ha : a ≤ 99
    · by_cases hr : inAcc s.cfg (x - s.mem.read a)
      · simp [subEffect, bind, Except.bind, hx, ha, checkAcc_of_inAcc hr, pure, Except.pure] at h
        exact ⟨x, rfl, ha, hr, h.symm⟩
      · simp [subEffect, bind, Except.bind, hx, ha, checkAcc_of_not_inAcc hr] at h
    · simp [subEffect, bind, Except.bind, hx, memRead, ha] at h

theorem shiftCode_eq_ok {s : State} {a : Nat} {code : Int} (h : shiftCode s a = .ok code) :
    a ≤ 99 ∧ code = s.mem.read a ∧ 0 ≤ code ∧ code ≤ 99 := by
  by_cases ha : a ≤ 99
  · simp only [shiftCode, memRead_of_le ha] at h
    split at h
    · simp only [Except.ok.injEq] at h; subst h; exact ⟨ha, rfl, by assumption⟩
    · simp at h
  · simp [shiftCode, memRead, ha] at h

theorem shiftEffect_eq_ok {a : Nat} {s : State} {e : Effected} (h : shiftEffect a s = .ok e) :
    ∃ x y, s.acc = some x ∧ shiftCode s a = .ok (s.mem.read a) ∧ shiftValue s.cfg (s.mem.read a) x = .ok y ∧
      e = { st := s.setAcc y } := by
  simp only [shiftEffect, bind, Except.bind] at h
  split at h
  · simp at h
  · rename_i code hc
    obtain ⟨-, rfl, -⟩ := shiftCode_eq_ok hc
    cases hx : s.acc with
    | none => simp [hx] at h
    | some x =>
      simp only [accRead_of_some hx] at h
      split at h
      · simp at h
      · rename_i y hy
        simp only [pure, Except.pure, Except.ok.injEq] at h
        exact ⟨x, y, rfl, hc, hy, h.symm⟩

theorem storeEffect_eq_ok {a : Nat} {s : State} {e : Effected} (h : storeEffect a s = .ok e) :
    ∃ x, s.acc = some x ∧ a ≤ 99 ∧ inCell x ∧ e = { st := s.setMem (s.mem.write a x) } := by
  cases hx : s.acc with
  | none => simp [storeEffect, bind, Except.bind, hx] at h
  | some x =>
    simp only [storeEffect, bind, Except.bind, accRead_of_some hx] at h
    split at h
    · simp at h
    · rename_i t ht
      obtain ⟨ha, hc, rfl⟩ := memWrite_eq_ok_iff.1 ht
      simp only [pure, Except.pure, Except.ok.injEq] at h
      exact ⟨x, rfl, ha, hc, h.symm⟩

theorem testEffect_eq_ok {a : Nat} {s : State} {e : Effected} (h : testEffect a s = .ok e) :
    ∃ x, s.acc = some x ∧ e = { st := s, target := if isNegative x then some a else none } := by
  cases hx : s.acc with
  | none => simp [testEffect, bind, Except.bind, hx] at h
  | some x =>
    simp only [testEffect, bind, Except.bind, accRead_of_some hx, pure, Except.pure, Except.ok.injEq] at h
    exact ⟨x, rfl, h.symm⟩

/-- JUMP as MemWrite of the return word, then the branch. -/
theorem jumpEffect_eq_bind (a : Nat) (s : State) :
    jumpEffect a s = (memWrite s 99 (returnWord s.pc)).bind (fun s1 => .ok { st := s1, target := some a }) := rfl

/-- A MemWrite followed by a branch, for any word written. -/
theorem memWrite_bind_eq_ok {s : State} {c a : Nat} {v : Int} {e : Effected}
    (h : (memWrite s c v).bind (fun s1 => .ok { st := s1, target := some a }) = .ok e) :
    inCell v ∧ e = { st := s.setMem (s.mem.write c v), target := some a } := by
  cases ht : memWrite s c v with
  | error r => simp [ht, Except.bind] at h
  | ok t =>
    obtain ⟨-, hc, rfl⟩ := memWrite_eq_ok_iff.1 ht
    simp only [ht, Except.bind, Except.ok.injEq] at h
    exact ⟨hc, h.symm⟩

theorem jumpEffect_eq_ok {a : Nat} {s : State} {e : Effected} (h : jumpEffect a s = .ok e) :
    inCell (returnWord s.pc) ∧ e = { st := s.setMem (s.mem.write 99 (returnWord s.pc)), target := some a } :=
  memWrite_bind_eq_ok ((jumpEffect_eq_bind a s).symm.trans h)

/-- The return word of an instruction address is a cell value (R100: 801..900). -/
theorem returnWord_inCell {c : Nat} (h : c ≤ 99) : inCell (returnWord c) := by
  simp only [returnWord]; omega

theorem jumpEffect_of_inCell {a : Nat} {s : State} (h : inCell (returnWord s.pc)) :
    jumpEffect a s = .ok { st := s.setMem (s.mem.write 99 (returnWord s.pc)), target := some a } :=
  (jumpEffect_eq_bind a s).trans (congrArg (fun r => Except.bind r _) (memWrite_of_ok (by omega) h))

theorem jumpEffect_of_not_inCell {a : Nat} {s : State} (h : ¬ inCell (returnWord s.pc)) :
    jumpEffect a s = .error (.cellRange 99 (returnWord s.pc)) :=
  (jumpEffect_eq_bind a s).trans (congrArg (fun r => Except.bind r _) (memWrite_of_not_inCell (by omega) h))

theorem jumpEffect_of_pc_le {a : Nat} {s : State} (h : s.pc ≤ 99) :
    jumpEffect a s = .ok { st := s.setMem (s.mem.write 99 (returnWord s.pc)), target := some a } :=
  jumpEffect_of_inCell (returnWord_inCell h)

theorem haltEffect_eq_ok {a : Nat} {s : State} {e : Effected} (h : haltEffect a s = .ok e) :
    e = { st := s, halt := .haltInstr } := by
  simp only [haltEffect, Except.ok.injEq] at h; exact h.symm

theorem unrecognisedEffect_eq_ok {w : Int} {s : State} {e : Effected} (h : unrecognisedEffect w s = .ok e) :
    e = { st := s, halt := .unknownOpcode } := by
  simp only [unrecognisedEffect, Except.ok.injEq] at h; exact h.symm

theorem refusedNegativeEffect_eq_ok {w : Int} {s : State} {e : Effected} (h : refusedNegativeEffect w s = .ok e) :
    s.cfg.decodeNeg = .halt ∧ e = { st := s, halt := .unknownOpcode } := by
  cases hm : s.cfg.decodeNeg with
  | fault => simp [refusedNegativeEffect, hm] at h
  | halt => simp only [refusedNegativeEffect, hm] at h; exact ⟨rfl, unrecognisedEffect_eq_ok h⟩

/-! ### The effects, on operands for which they raise nothing -/

theorem inputEffect_of_some {a : Nat} {s : State} {v : Int} (h : s.deck[s.cursor]? = some v) (ha : a ≤ 99)
    (hv : inCell v) : inputEffect a s = .ok { st := s.advanceCursor.setMem (s.mem.write a v) } := by
  simp only [inputEffect, bind, Except.bind, deckRead, h, memWrite_of_ok ha hv]; rfl

theorem inputEffect_of_zero {a : Nat} {s : State} (h : s.deck[s.cursor]? = none) (hz : s.cfg.deckExhausted = .zero)
    (ha : a ≤ 99) : inputEffect a s = .ok { st := s.advanceCursor.setMem (s.mem.write a 0) } := by
  simp only [inputEffect, bind, Except.bind, deckRead, h, hz, memWrite_of_ok ha (show inCell 0 by simp [inCell])]; rfl

theorem outputEffect_of_le {a : Nat} {s : State} (ha : a ≤ 99) :
    outputEffect a s = .ok { st := s.outEmit (s.mem.read a) } := by
  simp only [outputEffect, bind, Except.bind, memRead_of_le ha]; rfl

theorem loadEffect_of_le {a : Nat} {s : State} (ha : a ≤ 99) :
    loadEffect a s = .ok { st := s.setAcc (s.mem.read a) } := by
  simp only [loadEffect, bind, Except.bind, memRead_of_le ha]; rfl

theorem addEffect_of_inAcc {a : Nat} {s : State} {x : Int} (hx : s.acc = some x) (ha : a ≤ 99)
    (hr : inAcc s.cfg (x + s.mem.read a)) : addEffect a s = .ok { st := s.setAcc (x + s.mem.read a) } := by
  simp only [addEffect, bind, Except.bind, accRead_of_some hx, memRead_of_le ha, checkAcc_of_inAcc hr]; rfl

theorem subEffect_of_inAcc {a : Nat} {s : State} {x : Int} (hx : s.acc = some x) (ha : a ≤ 99)
    (hr : inAcc s.cfg (x - s.mem.read a)) : subEffect a s = .ok { st := s.setAcc (x - s.mem.read a) } := by
  simp only [subEffect, bind, Except.bind, accRead_of_some hx, memRead_of_le ha, checkAcc_of_inAcc hr]; rfl

theorem shiftEffect_of_value {a : Nat} {s : State} {code x y : Int} (hc : shiftCode s a = .ok code)
    (hx : s.acc = some x) (hy : shiftValue s.cfg code x = .ok y) : shiftEffect a s = .ok { st := s.setAcc y } := by
  simp only [shiftEffect, bind, Except.bind, hc, accRead_of_some hx, hy]; rfl

theorem storeEffect_of_inCell {a : Nat} {s : State} {x : Int} (hx : s.acc = some x) (ha : a ≤ 99) (hv : inCell x) :
    storeEffect a s = .ok { st := s.setMem (s.mem.write a x) } := by
  simp only [storeEffect, bind, Except.bind, accRead_of_some hx, memWrite_of_ok ha hv]; rfl

theorem testEffect_of_some {a : Nat} {s : State} {x : Int} (hx : s.acc = some x) :
    testEffect a s = .ok { st := s, target := if isNegative x then some a else none } := by
  simp only [testEffect, bind, Except.bind, accRead_of_some hx]; rfl

theorem refusedNegativeEffect_of_halt {w : Int} {s : State} (h : s.cfg.decodeNeg = .halt) :
    refusedNegativeEffect w s = .ok { st := s, halt := .unknownOpcode } := by
  simp only [refusedNegativeEffect, h]; rfl

/-! ### The step -/

/-- A step that answers a next state was taken while RUNNING, and is a fetch fault or the meaning of the fetched
instruction. -/
theorem step_eq_next {s t : State} (h : step s = .next t) :
    s.runState = .running ∧
      ((∃ r, fetch s = .error r ∧ t = takeFault s r) ∨
        ∃ w i, fetch s = .ok w ∧ decode w = .ok i ∧ exec i s = .next t) := by
  unfold step at h
  split at h
  · simp at h
  · simp at h
  · rename_i hr
    refine ⟨hr, ?_⟩
    split at h
    · rename_i r hf
      simp only [Host.Outcome.next.injEq] at h
      exact .inl ⟨r, hf, h.symm⟩
    · rename_i w hf
      split at h
      · rename_i i hd
        exact .inr ⟨w, i, hf, hd, h⟩
      · simp at h

end Sys2Proof.Machine
end

