-- ==== Sys2Proof/Laws/PerInstr.lean ====
section
/-! SUPPORT. The per-instruction family: the word of every well-formed instruction is a cell value, so that it can be
stored in a cell (spec/30_encoding.md R58, R62). -/

namespace Sys2Proof.Laws.EncodesToACellValue

/-- The word of a well-formed instruction is a cell value. -/
def Statement (i : Instr) : Prop := i.wellFormed = true → inCell (encode i)

/-- Fields in range give a word in 0..999. -/
theorem encodeFields_inCell {op a : Nat} (hop : op ≤ 9) (ha : addressOk a = true) : inCell (encodeFields op a) := by
  have : a ≤ 99 := of_decide_eq_true ha
  simp only [encodeFields]
  omega

theorem input (a : Nat) : Statement (.input a) := encodeFields_inCell (by omega)
theorem load (a : Nat) : Statement (.load a) := encodeFields_inCell (by omega)
theorem add (a : Nat) : Statement (.add a) := encodeFields_inCell (by omega)
theorem test (a : Nat) : Statement (.test a) := encodeFields_inCell (by omega)
theorem shift (a : Nat) : Statement (.shift a) := encodeFields_inCell (by omega)
theorem output (a : Nat) : Statement (.output a) := encodeFields_inCell (by omega)
theorem store (a : Nat) : Statement (.store a) := encodeFields_inCell (by omega)
theorem sub (a : Nat) : Statement (.sub a) := encodeFields_inCell (by omega)
theorem jump (a : Nat) : Statement (.jump a) := encodeFields_inCell (by omega)
theorem halt (a : Nat) : Statement (.halt a) := encodeFields_inCell (by omega)

theorem unrecognised (w : Int) : Statement (.unrecognised w) := by
  intro h
  have h := of_decide_eq_true h
  simp only [encode]
  omega

theorem refusedNegative (w : Int) : Statement (.refusedNegative w) := by
  intro h
  have h := of_decide_eq_true h
  simp only [encode]
  omega

end Sys2Proof.Laws.EncodesToACellValue
end

