-- ==== Sys2Proof/Tests/Slice0.lean ====
section
/-! SUPPORT. The model's own tests: expected results are the spec's worked examples and vectors
(spec/95_test_vectors.md), named in each comment; then the witnesses of the statements' hypotheses. -/

namespace Sys2Proof.Tests
open Sys2Proof.Machine Sys2Proof.Slice0

/-! ### Well-formedness: one ill-formed term for each check -/

theorem test_wellFormed_refuses_address_100 :
    ([.input 100, .load 100, .add 100, .test 100, .shift 100, .output 100, .store 100, .sub 100, .jump 100,
      .halt 100] : List Instr).map Instr.wellFormed = List.replicate 10 false := by decide

theorem test_wellFormed_refuses_recognised_words :
    ([.unrecognised 999, .unrecognised 32768, .unrecognised (-99), .unrecognised (-32769), .refusedNegative 0,
      .refusedNegative (-100)] : List Instr).map Instr.wellFormed = List.replicate 6 false := by decide

/-! ### Decoding: words written out from R58 and R61 (opcode digit, two address digits), and 95_test_vectors.md 2.1 -/

theorem test_decode_io : decode 0 = .ok (.input 0) ∧ decode 99 = .ok (.input 99) ∧ decode 511 = .ok (.output 11) := by
  decide

theorem test_decode_accumulator :
    decode 105 = .ok (.load 5) ∧ decode 201 = .ok (.add 1) ∧ decode 402 = .ok (.shift 2) ∧
      decode 699 = .ok (.store 99) ∧ decode 700 = .ok (.sub 0) := by decide

theorem test_decode_control :
    decode 399 = .ok (.test 99) ∧ decode 816 = .ok (.jump 16) ∧ decode 900 = .ok (.halt 0) ∧
      decode 955 = .ok (.halt 55) := by decide

theorem test_decode_others :
    decode 1000 = .ok (.unrecognised 1000) ∧ decode 32767 = .ok (.unrecognised 32767) ∧
      decode (-100) = .ok (.unrecognised (-100)) ∧ decode (-32768) = .ok (.unrecognised (-32768)) ∧
      decode (-1) = .ok (.refusedNegative (-1)) ∧ decode (-99) = .ok (.refusedNegative (-99)) ∧
      decode 32768 = .error (.notACellValue 32768) := by decide

/-- E2: the encoded words. -/
theorem test_encode : [Instr.load 5, .store 99, .input 0, .jump 16].map encode = [105, 699, 0, 816] := by decide

/-- The host's two hooks on a word of each sign: 816 and -100 (sixteen bits 0xFF9C). -/
theorem test_table_words :
    decodeTableWord 16 816 = some (.jump 16) ∧ decodeTableWord 16 0xFF9C = some (.unrecognised (-100)) ∧
      decodeTableWord 8 42 = some (.input 42) ∧ decodeTableWord 24 65536 = none := by decide

/-! ### One step on a small state -/

/-- A RUNNING engine at cell `c`. -/
def engine (c : Nat) (m : Memory) (acc : Option Int := none) (deck : List Int := []) (cfg : Config := {}) : State :=
  { State.reset with pc := c, mem := m, acc := acc, deck := deck, cfg := cfg }

/-- The next state, if the step has one. -/
def after (s : State) : Option State :=
  match step s with
  | .next t => some t
  | .fault _ => none
  | .refused _ => none

/-- V-IN-1. -/
theorem test_in : (after (engine 10 [(10, 1)] none [42])).map (fun t => (t.mem.read 1, t.cursor, t.pc)) =
    some (42, 1, 11) := by decide

/-- V-IN-2: the cursor and pc stay. -/
theorem test_in_exhausted : (after (engine 10 [(10, 5)])).map (fun t => (t.faultCode, t.cursor, t.pc)) =
    some (.deckExhausted, 0, 10) := by decide

/-- V-OUT-3: OUT of its own cell. -/
theorem test_out : (after (engine 11 [(11, 511)])).map (fun t => (t.out, t.pc)) = some ([511], 12) := by decide

/-- V-OUT-4: the seeded constant. -/
theorem test_out_constant : (after (engine 10 [(10, 500)])).map (fun t => t.out) = some [1] := by decide

/-- V-LD-2. -/
theorem test_load : (after (engine 10 [(5, -32768), (10, 105)])).map (fun t => t.acc) = some (some (-32768)) := by decide

/-- V-C-1: the last cell. -/
theorem test_load_at_99 :
    (after (engine 99 [(1, 3), (99, 101)])).map (fun t => (t.acc, t.pc, t.runState, t.haltCause)) =
      some (some 3, 100, .halted, .pcOverflow) := by decide

/-- V-ADD-5. -/
theorem test_add : (after (engine 10 [(2, 5), (10, 202)] (some (-5)))).map (fun t => t.acc) = some (some 0) := by decide

/-- V-ADD-2, at both widths. -/
theorem test_add_overflow :
    (after (engine 10 [(10, 200)] (some 32767))).map (fun t => (t.acc, t.faultCode)) =
        some (some 32767, .accOverflow) ∧
      (after (engine 10 [(10, 200)] (some 32767) [] { accBits := 32 })).map (fun t => t.acc) = some (some 32768) := by
  decide

/-- V-SH-6 and V-SH-8. -/
theorem test_shift :
    (after (engine 10 [(5, 12), (10, 405)] (some 1234))).map (fun t => t.acc) = some (some 123) ∧
      (after (engine 10 [(5, 11), (10, 405)] (some 5000))).map (fun t => (t.acc, t.faultCode)) =
        some (some 5000, .accOverflow) := by decide

/-- V-SH-11 in the three modes, and V-SH-16. -/
theorem test_shift_corners :
    (after (engine 10 [(5, 1), (10, 405)] (some (-15)))).map (fun t => t.faultCode) = some .shiftRounding ∧
      (after (engine 10 [(5, 1), (10, 405)] (some (-15)) [] { shiftDiv := .trunc })).map (fun t => t.acc) =
        some (some (-1)) ∧
      (after (engine 10 [(5, 1), (10, 405)] (some (-15)) [] { shiftDiv := .floor })).map (fun t => t.acc) =
        some (some (-2)) ∧
      (after (engine 10 [(5, 100), (10, 405)])).map (fun t => t.faultCode) = some .shiftCodeRange := by decide

/-- V-ST-3: the constant in cell 0 is overwritten. -/
theorem test_store : (after (engine 10 [(10, 600)] (some (-1)))).map (fun t => t.mem.read 0) = some (-1) := by decide

/-- V-ST-4. -/
theorem test_store_wide :
    (after (engine 10 [(10, 601)] (some 40000) [] { accBits := 32 })).map (fun t => (t.mem.read 1, t.faultCode)) =
      some (0, .cellRange) := by decide

/-- V-SUB-1. -/
theorem test_sub : (after (engine 10 [(10, 700)] (some 3))).map (fun t => t.acc) = some (some 2) := by decide

/-- V-SUB-2. -/
theorem test_sub_overflow : (after (engine 10 [(6, -32768), (10, 706)] (some 0))).map (fun t => t.faultCode) =
    some .accOverflow := by decide

/-- V-T-1 and V-T-2. -/
theorem test_test :
    (after (engine 12 [(12, 305)] (some (-3)))).map (fun t => t.pc) = some 5 ∧
      (after (engine 12 [(12, 305)] (some 0))).map (fun t => t.pc) = some 13 := by decide

/-- V-T-8: a taken branch at the last cell does not end the run. -/
theorem test_test_at_99 : (after (engine 99 [(99, 310)] (some (-1)))).map (fun t => (t.pc, t.runState)) =
    some (10, .running) := by decide

/-- V-J-1 (E5). -/
theorem test_jump : (after (engine 15 [(15, 820)])).map (fun t => (t.mem.read 99, t.pc)) = some (816, 20) := by decide

/-- V-J-5, first step: JUMP 99 at cell 99 saves the HALT word. -/
theorem test_jump_at_99 : (after (engine 99 [(99, 899)])).map (fun t => (t.mem.read 99, t.pc, t.runState)) =
    some (900, 99, .running) := by decide

/-- V-H-2. -/
theorem test_halt : (after (engine 10 [(10, 955)])).map (fun t => (t.runState, t.haltCause, t.pc, t.ir)) =
    some (.halted, .haltInstr, 11, .opcode 9) := by decide

/-- V-H-3: the instruction's cause outranks PC_OVERFLOW. -/
theorem test_halt_at_99 : (after (engine 99 [(99, 900)])).map (fun t => (t.haltCause, t.pc)) =
    some (.haltInstr, 100) := by decide

/-- V-U-1. -/
theorem test_unrecognised : (after (engine 1 [(1, 1500)])).map (fun t => (t.runState, t.haltCause, t.pc, t.ir)) =
    some (.halted, .unknownOpcode, 2, .unknown) := by decide

/-- Section 2.1, word -1, default mode. -/
theorem test_refused_negative : (after (engine 40 [(40, -1)])).map (fun t => (t.runState, t.faultCode, t.pc)) =
    some (.faulted, .negativeWord, 40) := by decide

/-- V-U-3. -/
theorem test_refused_negative_halt :
    (after (engine 40 [(40, -1)] none [] { decodeNeg := .halt })).map (fun t => (t.haltCause, t.pc)) =
      some (.unknownOpcode, 41) := by decide

/-- The host's hook: the word placed is the word the first step runs. -/
theorem test_fetch_word : (after (State.reset.withFetchWord 16 850)).map (fun t => (t.pc, t.mem.read 99)) =
    some (50, 811) := by decide

/-- 20_memory.md R56. -/
theorem test_spelling : [0, 7, -7, 10, -32768].map spellLine =
    [['0'], ['7'], ['-', '7'], ['1', '0'], ['-', '3', '2', '7', '6', '8']] := by decide

/-! ### The assembler -/

/-- V-A-4 and E8: a forward label. -/
theorem test_assemble_label :
    (assemble {} "JUMP LOOP\nLOOP: HALT".toList).map (fun m => (m[10]?, m[11]?, m[0]?)) =
      .ok (some 811, some 900, some 0) := by decide

/-- V-A-3: an auto-allocated variable. -/
theorem test_assemble_variable :
    (assemble {} "# note\n\nIN V\nOUT V\nHALT".toList).map (fun m => (m[10]?, m[11]?, m[12]?)) =
      .ok (some 1, some 501, some 900) := by decide

/-- `#` after a label is refused, also where the token ends in `:` (log entry 14). -/
theorem test_assemble_no_comment_after_label :
    assemble {} "A: #note: HALT".toList = .error (.commentAfterLabel "#note:".toList) ∧
      assemble {} "A: # note".toList = .error (.commentAfterLabel ['#']) := by decide

/-- V-A-5, V-A-6, V-A-7, V-A-9. -/
theorem test_assemble_errors :
    assemble {} "FOO 3".toList = .error (.unknownMnemonic ['F', 'O', 'O']) ∧
      assemble {} "LOAD".toList = .error .missingOperand ∧ assemble {} "LOAD 150".toList = .error (.operandRange 150) ∧
      assemble {} "HALT 5".toList = .error .haltOperand := by decide

/-! ### Witnesses: states and operands that meet the hypotheses of each statement, clause by clause -/

theorem witness_InputStoresTheNextDeckValue :
    Ready (engine 99 [] none [-32768]) ∧ (engine 99 [] none [-32768]).mem.wf ∧ 99 ≤ 99 ∧
      (engine 99 [] none [-32768]).deck[(engine 99 [] none [-32768]).cursor]? = some (-32768) ∧ inCell (-32768) := by
  decide

theorem witness_InputPastTheDeckFaultsOrReadsZero :
    Ready (engine 10 []) ∧ (engine 10 []).mem.wf ∧ 99 ≤ 99 ∧ (engine 10 []).deck.length ≤ (engine 10 []).cursor ∧
      (engine 10 []).cfg.deckExhausted = .fault ∧
      (engine 10 [] none [] { deckExhausted := .zero }).cfg.deckExhausted = .zero := by decide

theorem witness_StoringOutsideTheCellRangeFaults :
    Ready (engine 10 [] (some 32768) [32768] { accBits := 32 }) ∧ 99 ≤ 99 ∧ ¬ inCell 32768 ∧
      (engine 10 [] (some 32768) [32768] { accBits := 32 }).deck[0]? = some 32768 ∧
      (engine 10 [] (some 32768) [32768] { accBits := 32 }).acc = some 32768 := by decide

/-- For OutputEmitsTheCell, LoadCopiesTheCell, HaltStopsTheEngine and UnrecognisedWordHalts: the last cell. -/
theorem witness_ready_at_99 : Ready (engine 99 []) ∧ 99 ≤ 99 := by decide

theorem witness_AddAndSubtractAreExact :
    Ready (engine 10 [] (some 32766)) ∧ 0 ≤ 99 ∧ (engine 10 [] (some 32766)).acc = some 32766 ∧
      inAcc (engine 10 [] (some 32766)).cfg (32766 + (engine 10 [] (some 32766)).mem.read 0) ∧
      inAcc (engine 10 [] (some 32766)).cfg (32766 - (engine 10 [] (some 32766)).mem.read 0) := by decide

theorem witness_AddAndSubtractOverflowFaults :
    (Ready (engine 10 [] (some 32767)) ∧ ¬ inAcc {} (32767 + (engine 10 [] (some 32767)).mem.read 0)) ∧
      Ready (engine 10 [] (some (-32768))) ∧ ¬ inAcc {} (-32768 - (engine 10 [] (some (-32768))).mem.read 0) := by
  decide

theorem witness_AccumulatorRangeHoldsEveryCellValue : 16 ≤ ({} : Config).accBits ∧ inCell (-32768) := by decide

/-- Code 19 on 5 (exact), and -15 with code 01 in modes TRUNC and FLOOR. -/
theorem witness_ShiftMultipliesThenDivides :
    (Ready (engine 10 [(5, 19)] (some 5)) ∧ (engine 10 [(5, 19)] (some 5)).mem.read 5 = 10 * (1 : Nat) + (9 : Nat) ∧
      inAcc {} (5 * 10 ^ 1) ∧ (0 : Int) ≤ 5 * 10 ^ 1 ∧ (0 : Int) = (5 * 10 ^ 1) / 10 ^ 9) ∧
    (engine 10 [(5, 1)] (some (-15)) [] { shiftDiv := .trunc }).cfg.shiftDiv = .trunc ∧
    (-1 : Int) = (-15 * 10 ^ 0 : Int).tdiv (10 ^ 1) ∧
    (engine 10 [(5, 1)] (some (-15)) [] { shiftDiv := .floor }).cfg.shiftDiv = .floor ∧
    (-2 : Int) = (-15 * 10 ^ 0 : Int).fdiv (10 ^ 1) := by decide

theorem witness_ShiftFaultsInOrder :
    (Ready (engine 10 [(5, 100)]) ∧ ¬ (0 ≤ (engine 10 [(5, 100)]).mem.read 5 ∧ (engine 10 [(5, 100)]).mem.read 5 ≤ 99)) ∧
    ((engine 10 [(5, 11)] (some 5000)).mem.read 5 = 10 * (1 : Nat) + (1 : Nat) ∧ inAcc {} 5000 ∧
      ¬ inAcc {} (5000 * 10 ^ 1)) ∧
    (engine 10 [(5, 1)] (some (-15))).mem.read 5 = 10 * (0 : Nat) + (1 : Nat) ∧ inAcc {} (-15) ∧
      inAcc {} (-15 * 10 ^ 0) ∧ (-15 : Int) < 0 ∧ ¬ (10 : Int) ^ 1 ∣ -15 * 10 ^ 0 ∧
      (engine 10 [(5, 1)] (some (-15))).cfg.shiftDiv = .undecided := by decide

theorem witness_StoreWritesTheAccumulator :
    Ready (engine 99 [] (some 1)) ∧ (engine 99 [] (some 1)).mem.wf ∧ 0 ≤ 99 ∧ (engine 99 [] (some 1)).acc = some 1 ∧
      inCell 1 := by decide

/-- Both clauses, at their boundary: -1 branches, 0 falls through. -/
theorem witness_TestBranchesIfNegative :
    Ready (engine 99 [] (some (-1))) ∧ (engine 99 [] (some (-1))).acc = some (-1) ∧ (-1 : Int) < 0 ∧
      (engine 99 [] (some 0)).acc = some 0 ∧ (0 : Int) ≤ 0 ∧ 99 ≤ 99 := by decide

/-- Both clauses: cells 98 and 99. -/
theorem witness_JumpSavesTheReturnWordAndBranches :
    (Ready (engine 98 []) ∧ (engine 98 []).mem.wf ∧ (engine 98 []).pc ≤ 98) ∧ Ready (engine 99 []) ∧
      (engine 99 []).pc = 99 ∧ 99 ≤ 99 := by decide

theorem witness_RefusedNegativeWordFaultsOrHalts :
    (Ready (engine 10 []) ∧ (engine 10 []).cfg.decodeNeg = .fault) ∧
      Ready (engine 10 [] none [] { decodeNeg := .halt }) ∧
      (engine 10 [] none [] { decodeNeg := .halt }).cfg.decodeNeg = .halt := by decide

/-- The first clause on a NONE accumulator with a legal code in cell 0; the second on ADD there; the third on a LOAD;
the fourth on a run of one step. -/
theorem witness_ReadingAnUnwrittenAccumulatorFaults :
    (Ready (engine 10 []) ∧ (engine 10 []).acc = none ∧ 0 ≤ (engine 10 []).mem.read 0 ∧ (engine 10 []).mem.read 0 ≤ 99) ∧
    exec (.add 0) (engine 10 []) = .next (faulted (engine 10 []) .accUnwritten) ∧
    (engine 10 []).faultCode ≠ .accUnwritten ∧ (faulted (engine 10 []) .accUnwritten).faultCode = .accUnwritten ∧
    (∃ t, exec (.load 0) (engine 10 [] (some 5)) = .next t) ∧ (engine 10 [] (some 5)).acc ≠ none ∧
    (∃ t, Steps (engine 10 [(10, 100)] (some 5)) t ∧ t.pc = 11) ∧ (engine 10 [(10, 100)] (some 5)).acc ≠ none ∧
    (engine 10 [(10, 100)] (some 5)).faultCode ≠ .accUnwritten :=
  ⟨by decide, rfl, by decide, rfl, exec_next _ _, by decide, ⟨_, .tail _ _ _ (.refl _) rfl, rfl⟩, by decide, by decide⟩

theorem witness_MemReadGuardsTheAddress : 99 < 100 ∧ 99 ≤ 99 := by decide

theorem witness_MemWriteWritesOneWholeCell :
    (engine 10 []).mem.wf ∧ 99 < 100 ∧ 99 ≤ 99 ∧ ¬ inCell 32768 ∧ inCell 32767 := by decide

theorem witness_DeckReadTakesTheNextValue :
    (engine 10 [] none [7]).deck[(engine 10 [] none [7]).cursor]? = some 7 ∧
      (engine 10 []).deck.length ≤ (engine 10 []).cursor ∧ (engine 10 []).cfg.deckExhausted = .fault ∧
      (engine 10 [] none [] { deckExhausted := .zero }).cfg.deckExhausted = .zero := by decide

theorem witness_DecodeOfEncodeIsTheInstruction :
    (Instr.halt 99).wellFormed = true ∧ (Instr.unrecognised (-100)).wellFormed = true ∧
      (Instr.refusedNegative (-99)).wellFormed = true := by decide

theorem witness_EveryCellValueDecodesToItsInstruction : inCell (-32768) ∧ decode 32767 = .ok (.unrecognised 32767) := by
  decide

/-- The ranges meet at 999 and 1000, at -100 and -99, and at -1 and 0; none holds a value of another. -/
theorem witness_DecoderClassifiesEveryCellValue :
    99 ≤ 99 ∧ (1000 : Int) ≤ 1000 ∧ (1000 : Int) ≤ 32767 ∧ (-32768 : Int) ≤ -100 ∧ (-99 : Int) ≤ -99 ∧ (-99 : Int) ≤ -1 ∧
      (engine 10 []).cfg.decodeNeg = .fault ∧ (engine 10 [] none [] { decodeNeg := .halt }).cfg.decodeNeg = .halt := by
  decide

theorem witness_StepRunsTheFetchedInstruction :
    Ready (engine 99 [(99, 900)]) ∧
      decode ((engine 99 [(99, 900)]).mem.read (engine 99 [(99, 900)]).pc) = .ok (.halt 0) := by decide

/-- State.reset meets the invariant. -/
theorem witness_inv : State.reset.Inv where
  cfg_ok := ⟨by decide, trivial⟩
  mem_wf := by decide
  acc_ok := trivial
  pc_le := by decide
  pc_lt := by decide
  halt_iff := by decide
  fault_iff := by decide
  deck_len := by decide
  cursor_le := by decide
  out_ok := by decide

theorem witness_RunningEngineAlwaysHasAStep :
    State.reset.Inv ∧ State.reset.runState = .running ∧
      ({ State.reset with runState := .halted } : State).runState = .halted ∧
      ({ State.reset with runState := .faulted } : State).runState = .faulted :=
  ⟨witness_inv, rfl, rfl, rfl⟩

/-- From reset, the zero cell 10 is IN 0 and the deck is empty: a faulting step. -/
theorem witness_FaultsArePreciseAndTerminal :
    State.reset.runState = .running ∧ faultInfo State.reset = some (.deckExhausted 0) ∧
      step State.reset = .next (faulted State.reset .deckExhausted) ∧
      (faulted State.reset .deckExhausted).runState = .faulted := ⟨rfl, rfl, rfl, rfl⟩

theorem witness_FaultInformationCanBeRecomputed :
    step State.reset = .next (faulted State.reset .deckExhausted) ∧ faultInfo State.reset = some (.deckExhausted 0) :=
  ⟨rfl, rfl⟩

theorem witness_FaultsAreRaisedOnlyByTheirInstructions :
    (Instr.input 0).wellFormed = true ∧ Ready State.reset ∧
      exec (.input 0) State.reset = .next (faulted State.reset .deckExhausted) ∧
      (faulted State.reset .deckExhausted).runState = .faulted := ⟨rfl, by decide, rfl, rfl⟩

/-- HALT at cell 99, and the three kinds of request and pc. -/
theorem witness_CompletedStepUpdatesPcAndChecksForTheEnd :
    (Instr.halt 0).wellFormed = true ∧ Ready (engine 99 []) ∧
      (∃ t, exec (.halt 0) (engine 99 []) = .next t ∧ t.runState ≠ .faulted) ∧ haltRequest (.halt 0) ≠ .none ∧
      (∃ t, exec (.load 0) (engine 99 []) = .next t ∧ t.runState ≠ .faulted ∧ t.pc = 100) ∧
      (∃ t, exec (.load 0) (engine 98 []) = .next t ∧ t.runState ≠ .faulted ∧ t.pc ≠ 100) ∧
      haltRequest (.load 0) = .none :=
  ⟨rfl, by decide, ⟨_, rfl, by decide⟩, by decide, ⟨_, rfl, by decide⟩, ⟨_, rfl, by decide⟩, rfl⟩

theorem witness_StepKeepsTheInvariant : State.reset.Inv ∧ ∃ t, step State.reset = .next t := ⟨witness_inv, _, rfl⟩

theorem witness_StartMeetsTheInvariant :
    configOk { accInit := some 32767 } ∧ hostDuty (List.replicate 100 900) [1, 2] :=
  ⟨⟨by decide, by show inAcc _ _; decide⟩, by decide⟩

/-- For AccumulatorIsTouchedOnlyAsListed, DeckCursorAndOutputChangeOnlyAsListed and NoOtherCellIsWritten. -/
theorem witness_exec_next :
    (∃ t, exec (.load 0) State.reset = .next t ∧ State.reset.acc = none ∧ t.acc ≠ none) ∧
      (∃ t, exec (.output 0) State.reset = .next t) ∧ writesAcc (.output 0) = false ∧ readsAcc (.output 0) = false ∧
      storedCell (.output 0) ≠ some 7 := ⟨⟨_, rfl, rfl, by decide⟩, ⟨_, rfl⟩, rfl, rfl, by decide⟩

theorem witness_StatusRegistersAreNeverRead : ∃ t, step State.reset = .next t := ⟨_, rfl⟩

/-- LOAD 5 at cell 10, on two memories that agree on cells 5 and 10 and differ at 7. -/
theorem witness_StepDependsOnlyOnTheCellsItReads :
    Ready (engine 10 [(5, 3), (10, 105)]) ∧ (engine 10 [(5, 3), (10, 105)]).mem.wf ∧
      Memory.wf [(5, 3), (7, 8), (10, 105)] ∧
      stepTransactions (engine 10 [(5, 3), (10, 105)]) = [.memRead 10, .memRead 5] ∧
      Memory.read [(5, 3), (7, 8), (10, 105)] 10 = 105 ∧ Memory.read [(5, 3), (7, 8), (10, 105)] 5 = 3 ∧
      ∃ t, step (engine 10 [(5, 3), (10, 105)]) = .next t ∧ t.runState ≠ .faulted :=
  ⟨by decide, by decide, by decide, rfl, rfl, rfl, _, rfl, by decide⟩

theorem witness_AddressRangeNeverFires : State.reset.Inv ∧ ∃ t, step State.reset = .next t := ⟨witness_inv, _, rfl⟩

theorem witness_StoppedRunsStayStopped :
    Steps { State.reset with runState := .halted } { State.reset with runState := .halted } ∧
      ({ State.reset with runState := .halted } : State).runState ≠ .running := ⟨.refl _, by decide⟩

/-- The default choices against a wider accumulator that starts at 5 in mode TRUNC; LOAD 0 is the step. -/
theorem witness_UnfaultedStepsAgreeUnderEveryResolution :
    AgreesUpToChoices (engine 10 [(10, 100)]) (engine 10 [(10, 100)] (some 5) [] { accBits := 32, shiftDiv := .trunc }) ∧
      ∃ t, step (engine 10 [(10, 100)]) = .next t ∧ t.runState ≠ .faulted ∧ Steps (engine 10 [(10, 100)]) t :=
  ⟨⟨⟨by decide, .inl rfl, .inl rfl, .inl rfl⟩, .inl rfl, rfl⟩, _, rfl, by decide, .tail _ _ _ (.refl _) rfl⟩

theorem witness_JumpToItselfNeverEndsBelowCell99 :
    (Ready (engine 98 [(98, 898)]) ∧ (engine 98 [(98, 898)]).pc ≤ 98 ∧ (engine 98 [(98, 898)]).mem.read 98 = 800 + 98) ∧
      Ready (engine 99 [(99, 899)]) ∧ (engine 99 [(99, 899)]).mem.wf ∧ (engine 99 [(99, 899)]).pc = 99 ∧
      (engine 99 [(99, 899)]).mem.read 99 = 899 := by decide

/-- A run that comes to a refused step is no hang (log entry 8). -/
theorem test_refused_run_is_no_hang : ¬ NeverEnds (engine 10 [(10, 32768)]) := by
  intro h
  obtain ⟨-, u, hu⟩ := h _ (.refl _)
  have hr : step (engine 10 [(10, 32768)]) = .refused (.notACellValue 32768) := rfl
  rw [hr] at hu
  cases hu

/-- LOOP and loop are two names (log entry 19): the misspelt operand becomes variable 1. -/
theorem test_names_are_case_sensitive :
    (assemble {} "LOOP: JUMP loop".toList).toOption.bind (fun image => image[10]?) = some 801 := by decide

theorem witness_JumpThroughCell99DoesNotReturn :
    Ready (engine 98 [(98, 899)]) ∧ (engine 98 [(98, 899)]).mem.wf ∧ (engine 98 [(98, 899)]).pc ≤ 98 ∧
      (engine 98 [(98, 899)]).mem.read (engine 98 [(98, 899)]).pc = 899 := by decide

theorem witness_TakenTestOf99Returns :
    Ready (engine 20 [(20, 399), (99, 812)] (some (-1))) ∧ (engine 20 [(20, 399), (99, 812)] (some (-1))).acc = some (-1) ∧
      (-1 : Int) < 0 ∧ (engine 20 [(20, 399), (99, 812)] (some (-1))).mem.read 20 = 399 ∧ 12 ≤ 99 ∧
      (engine 20 [(20, 399), (99, 812)] (some (-1))).mem.read 99 = 800 + (12 : Nat) := by decide

/-- STORE 99 at cell 98, and STORE 98 at cell 98. -/
theorem witness_StoredWordIsExecutedNext :
    (Ready (engine 98 [(98, 699)] (some 900)) ∧ (engine 98 [(98, 699)] (some 900)).mem.wf ∧
      (engine 98 [(98, 699)] (some 900)).pc ≤ 98 ∧ (engine 98 [(98, 699)] (some 900)).acc = some 900 ∧ inCell 900 ∧
      (engine 98 [(98, 699)] (some 900)).mem.read 98 = 600 + (98 + 1) ∧ decode 900 = .ok (.halt 0)) ∧
    Ready (engine 98 [(98, 698)] (some 900)) ∧ (engine 98 [(98, 698)] (some 900)).mem.wf ∧
      (engine 98 [(98, 698)] (some 900)).mem.read 98 = 600 + 98 := by decide

theorem witness_OutputLinesAreMinimalDecimal :
    (0 : Int) < 1 ∧ (-1 : Int) < 0 ∧ ({ State.reset with out := [5] } : State).out[0]? = some 5 := by decide

theorem witness_EndStateIsReadableAfterTheRun :
    State.reset.runState = .running ∧ ({ State.reset with runState := .halted } : State).runState ≠ .running := by decide

theorem witness_AssembledImageIsLoadable : ∃ image, assemble {} "HALT".toList = .ok image := ⟨_, rfl⟩

/-- StartSetsEveryPieceOfState: a full image and deck within the host's duties. -/
theorem witness_StartSetsEveryPieceOfState : hostDuty (List.replicate 100 (-32768)) (List.replicate 100 32767) := by
  decide

end Sys2Proof.Tests
end

section
/-! PROOFS. The parameters of a run and its start (spec/00_scope.md R8, R9, R14): the accumulator range against the cell
range, and State.reset as a start. -/

namespace Sys2Proof.Machine

/-! ### The accumulator range -/

/-- A wider accumulator holds every value of a narrower one (R9). -/
theorem inAcc_of_accBits_le {c d : Config} {v : Int} (h : c.accBits ≤ d.accBits) (hv : inAcc c v) : inAcc d v := by
  have hpow : 2 ^ (c.accBits - 1) ≤ 2 ^ (d.accBits - 1) := Nat.pow_le_pow_right (by decide) (Nat.sub_le_sub_right h 1)
  simp only [inAcc, accMin, accMax] at hv ⊢
  omega

/-- The 16-bit accumulator range is the cell range (R8, R9). -/
theorem inAcc_iff_inCell {c : Config} {v : Int} (h : c.accBits = 16) : inAcc c v ↔ inCell v := by
  have hmin : accMin c = -32768 := by simp [accMin, h]
  have hmax : accMax c = 32767 := by simp [accMax, h]
  rw [inAcc, inCell, hmin, hmax]

/-- Settles O8: a cell value is in the range of the default 16-bit accumulator, and every legal width holds that range. -/
theorem accumulatorRangeHoldsEveryCellValue : Obligations.AccumulatorRangeHoldsEveryCellValue :=
  ⟨fun _ _ hbits hv => inAcc_of_accBits_le (c := {}) hbits ((inAcc_iff_inCell rfl).2 hv), fun _ _ => inAcc_iff_inCell⟩

/-! ### The all-zero image -/

/-- Past cell 0, zeros leave every cell unlisted. -/
theorem Memory.ofCells_replicate_zero {a : Nat} (ha : 0 < a) (n : Nat) :
    Memory.ofCells a (List.replicate n 0) = [] := by
  induction n generalizing a with
  | zero => rfl
  | succ n ih =>
    have hzero : unlisted a = 0 := if_neg ha.ne'
    simp [List.replicate_succ, Memory.ofCells, hzero, ih]

/-- Loading zeros and seeding cell 0 (R127) leaves memory as reset has it: no cell is listed. -/
theorem loadImage_replicate_zero (n : Nat) : loadImage (List.replicate n 0) = [] := by
  cases n with
  | zero => rfl
  | succ n => simp [loadImage, List.replicate_succ, Memory.ofCells, Memory.ofCells_replicate_zero, Memory.write, unlisted]

/-- Settles O35: the memories agree because the all-zero image lists no cell; the other fields are the same values. -/
theorem resetIsTheStartOfTheEmptyRun : Obligations.ResetIsTheStartOfTheEmptyRun := by
  unfold Obligations.ResetIsTheStartOfTheEmptyRun
  rw [State.reset, start, loadImage_replicate_zero]

end Sys2Proof.Machine
end

section
/-! PROOFS. What an instruction that completes has done: one rule per instruction, and what follows for each field of
the state (spec/40_cycle.md R84 to R86). -/

namespace Sys2Proof.Machine
open Sys2Proof.Slice0

/-! ### The completing effect of each instruction -/

/-- `Completes s i e`: from `s`, the effect of `i` raises nothing and is `e`. One rule per instruction, with what its
pseudocode has checked on the way (R91 to R102). -/
inductive Completes (s : State) : Instr → Effected → Prop where
  | input {a : Nat} {v : Int}
      (deck : s.deck[s.cursor]? = some v ∨ (s.deck[s.cursor]? = none ∧ s.cfg.deckExhausted = .zero ∧ v = 0))
      (address : a ≤ 99) (cell : inCell v) :
      Completes s (.input a) { st := s.advanceCursor.setMem (s.mem.write a v) }
  | output {a : Nat} : Completes s (.output a) { st := s.outEmit (s.mem.read a) }
  | load {a : Nat} : Completes s (.load a) { st := s.setAcc (s.mem.read a) }
  | add {a : Nat} {x : Int} (acc : s.acc = some x) (range : inAcc s.cfg (x + s.mem.read a)) :
      Completes s (.add a) { st := s.setAcc (x + s.mem.read a) }
  | sub {a : Nat} {x : Int} (acc : s.acc = some x) (range : inAcc s.cfg (x - s.mem.read a)) :
      Completes s (.sub a) { st := s.setAcc (x - s.mem.read a) }
  | shift {a : Nat} {x y : Int} (acc : s.acc = some x) (value : shiftValue s.cfg (s.mem.read a) x = .ok y) :
      Completes s (.shift a) { st := s.setAcc y }
  | store {a : Nat} {x : Int} (acc : s.acc = some x) (address : a ≤ 99) (cell : inCell x) :
      Completes s (.store a) { st := s.setMem (s.mem.write a x) }
  | test {a : Nat} {x : Int} (acc : s.acc = some x) :
      Completes s (.test a) { st := s, target := if isNegative x then some a else none }
  | jump {a : Nat} (cell : inCell (returnWord s.pc)) :
      Completes s (.jump a) { st := s.setMem (s.mem.write 99 (returnWord s.pc)), target := some a }
  | halt {a : Nat} : Completes s (.halt a) { st := s, halt := .haltInstr }
  | unrecognised {w : Int} : Completes s (.unrecognised w) { st := s, halt := .unknownOpcode }
  | refusedNegative {w : Int} (mode : s.cfg.decodeNeg = .halt) :
      Completes s (.refusedNegative w) { st := s, halt := .unknownOpcode }

/-- The effect of every instruction, where it raises nothing, is the one its rule gives. -/
theorem effectOf_eq_ok {i : Instr} {s : State} {e : Effected} (h : effectOf i s = .ok e) : Completes s i e := by
  cases i with
  | input a => obtain ⟨v, hdeck, ha, hcell, rfl⟩ := inputEffect_eq_ok h; exact .input hdeck ha hcell
  | output a => obtain ⟨-, rfl⟩ := outputEffect_eq_ok h; exact .output
  | load a => obtain ⟨-, rfl⟩ := loadEffect_eq_ok h; exact .load
  | add a => obtain ⟨x, hx, -, hr, rfl⟩ := addEffect_eq_ok h; exact .add hx hr
  | sub a => obtain ⟨x, hx, -, hr, rfl⟩ := subEffect_eq_ok h; exact .sub hx hr
  | shift a => obtain ⟨x, y, hx, -, hy, rfl⟩ := shiftEffect_eq_ok h; exact .shift hx hy
  | store a => obtain ⟨x, hx, ha, hcell, rfl⟩ := storeEffect_eq_ok h; exact .store hx ha hcell
  | test a => obtain ⟨x, hx, rfl⟩ := testEffect_eq_ok h; exact .test hx
  | jump a => obtain ⟨hcell, rfl⟩ := jumpEffect_eq_ok h; exact .jump hcell
  | halt a => obtain rfl := haltEffect_eq_ok (a := a) h; exact .halt
  | unrecognised w => obtain rfl := unrecognisedEffect_eq_ok (w := w) h; exact .unrecognised
  | refusedNegative w => obtain ⟨hm, rfl⟩ := refusedNegativeEffect_eq_ok h; exact .refusedNegative hm

/-- `exec` completes the step by the instruction's rule, or takes a fault. -/
theorem exec_completes_or_faults {i : Instr} {s t : State} (h : exec i s = .next t) :
    (∃ e, Completes s i e ∧ t = completeStep (irAfter i) e) ∨ ∃ r, t = takeFault s r := by
  obtain ⟨e, he, ht⟩ | ⟨r, -, ht⟩ := exec_eq_next h
  · exact .inl ⟨e, effectOf_eq_ok he, ht⟩
  · exact .inr ⟨r, ht⟩

/-! ### Field by field -/

namespace Completes

variable {s : State} {i : Instr} {e : Effected}

/-- An effect writes memory, accumulator, cursor and output, and nothing else (R86). -/
theorem frame (h : Completes s i e) :
    e.st = { s with mem := e.st.mem, acc := e.st.acc, cursor := e.st.cursor, out := e.st.out } := by
  cases h <;> rfl

theorem cfg_eq (h : Completes s i e) : e.st.cfg = s.cfg := by rw [h.frame]
theorem deck_eq (h : Completes s i e) : e.st.deck = s.deck := by rw [h.frame]
theorem pc_eq (h : Completes s i e) : e.st.pc = s.pc := by rw [h.frame]
theorem runState_eq (h : Completes s i e) : e.st.runState = s.runState := by rw [h.frame]
theorem haltCause_eq (h : Completes s i e) : e.st.haltCause = s.haltCause := by rw [h.frame]
theorem faultCode_eq (h : Completes s i e) : e.st.faultCode = s.faultCode := by rw [h.frame]

/-- Only LOAD, ADD, SUB and SHIFT write the accumulator (R22). -/
theorem acc_eq (h : Completes s i e) (hw : writesAcc i = false) : e.st.acc = s.acc := by
  cases h with
  | load | add | sub | shift => cases hw
  | _ => rfl

/-- ADD, SUB and SHIFT need a written accumulator, so only LOAD fills a NONE (R107). -/
theorem eq_load_of_acc_none (h : Completes s i e) (hs : s.acc = none) (he : e.st.acc ≠ none) : ∃ a, i = .load a := by
  cases h with
  | load => exact ⟨_, rfl⟩
  | add hx | sub hx | shift hx => simp [hs] at hx
  | _ => exact absurd hs he

/-- Only IN moves the cursor, by one, and in mode FAULT only within the deck (R34, R41). -/
theorem cursor_cases (h : Completes s i e) :
    e.st.cursor = s.cursor ∨
      e.st.cursor = s.cursor + 1 ∧ (∃ a, i = .input a) ∧
        (s.cfg.deckExhausted = .fault → s.cursor < s.deck.length) := by
  cases h with
  | input hdeck =>
    refine .inr ⟨rfl, ⟨_, rfl⟩, fun hmode => ?_⟩
    obtain hv | ⟨-, hzero, -⟩ := hdeck
    · exact (List.getElem?_eq_some_iff.1 hv).1
    · simp [hmode] at hzero
  | _ => exact .inl rfl

/-- Only OUT changes the output, by appending the value of its cell (R35, R42). -/
theorem out_cases (h : Completes s i e) :
    e.st.out = s.out ∨ ∃ a, i = .output a ∧ e.st.out = s.out ++ [s.mem.read a] := by
  cases h with
  | output => exact .inr ⟨_, rfl, rfl⟩
  | _ => exact .inl rfl

/-- Memory keeps its canonical form: what IN, STORE and JUMP write is a cell value in one of the 100 cells (R39). -/
theorem mem_wf (h : Completes s i e) (hm : s.mem.wf) : e.st.mem.wf := by
  cases h with
  | input _ ha hv | store _ ha hv => exact Memory.write_wf hm ha hv
  | jump hv => exact Memory.write_wf hm le_rfl hv
  | _ => exact hm

/-- The next pc is a branch target in 0..99 or the next address (R60, R84). -/
theorem nextPc_le (h : Completes s i e) (hi : i.wellFormed = true) : nextPc e ≤ 99 ∨ nextPc e = s.pc + 1 := by
  cases h with
  | @test a x =>
    cases hneg : isNegative x with
    | true => exact .inl (of_decide_eq_true hi)
    | false => exact .inr rfl
  | jump => exact .inl (of_decide_eq_true hi)
  | _ => exact .inr rfl

end Completes

end Sys2Proof.Machine
end

section
/-! PROOFS. The status numbers, and the statements about single fields: who writes the accumulator, the cursor and the
output, and what an instruction does not read (spec/10_state.md R22, R27, R29 to R31, R33 to R35). -/

namespace Sys2Proof.Machine
open Sys2Proof.Slice0

/-- Settles O50: the codes as the model numbers them. -/
theorem statusCodesAreNumberedAsListed : Obligations.StatusCodesAreNumberedAsListed := ⟨rfl, rfl⟩

/-- Settles O42: by induction on the run; a step is taken only while RUNNING. -/
theorem stoppedRunsStayStopped : Obligations.StoppedRunsStayStopped := by
  intro s t hrun hstop
  induction hrun with
  | refl => rfl
  | tail t u _ hstep ih =>
    obtain rfl := ih
    exact absurd (step_eq_next hstep).1 hstop

/-- Settles O37: a completed step moves these fields as its effect does, and a fault moves none of them. -/
theorem deckCursorAndOutputChangeOnlyAsListed : Obligations.DeckCursorAndOutputChangeOnlyAsListed := by
  intro i s t h
  obtain ⟨e, he, rfl⟩ | ⟨r, rfl⟩ := exec_completes_or_faults h
  · simp only [completeStep_cfg, completeStep_deck, completeStep_cursor, completeStep_out]
    exact ⟨he.cfg_eq, he.deck_eq, he.cursor_cases.imp_right fun ⟨hc, hi, _⟩ => ⟨hc, hi⟩, he.out_cases⟩
  · exact ⟨rfl, rfl, .inl rfl, .inl rfl⟩

/-! ### What a step does not read

To show that a piece of state is not read, it is hidden: `hide` overwrites it with fixed values. If two states are equal
once it is hidden, and an instruction's effects on them are too, then so are the states after the instruction. -/

/-- An effect with its state replaced by `hide` of it. -/
def Effected.mapState (hide : State → State) (e : Effected) : Effected := { e with st := hide e.st }

section
variable (hide : State → State) (e : Effected)

@[simp] theorem Effected.mapState_st : (e.mapState hide).st = hide e.st := rfl
@[simp] theorem Effected.mapState_target : (e.mapState hide).target = e.target := rfl
@[simp] theorem Effected.mapState_halt : (e.mapState hide).halt = e.halt := rfl

end

theorem nextPc_mapState {hide : State → State} (e : Effected) (h : (hide e.st).pc = e.st.pc) :
    nextPc (e.mapState hide) = nextPc e := by
  simp only [nextPc, Effected.mapState_target, Effected.mapState_st, h]

/-- The end of a step does not read what `hide` overwrites, except to carry it along. -/
structure StepEndIgnores (hide : State → State) : Prop where
  completeStep : ∀ op e, hide (completeStep op (e.mapState hide)) = hide (completeStep op e)
  takeFault : ∀ s r, hide (takeFault (hide s) r) = hide (takeFault s r)

/-- States and effects that are equal once `hide` is applied give next states that are. -/
theorem StepEndIgnores.exec_agrees {hide : State → State} (hh : StepEndIgnores hide) {i : Instr} {s s' t : State}
    (hs : hide s' = hide s)
    (he : Effected.mapState hide <$> effectOf i s' = Effected.mapState hide <$> effectOf i s)
    (h : exec i s = .next t) : ∃ u, exec i s' = .next u ∧ hide u = hide t := by
  obtain ⟨u, hu⟩ := exec_next i s'
  refine ⟨u, hu, ?_⟩
  obtain ⟨e, hok, rfl⟩ | ⟨r, herr, rfl⟩ := exec_eq_next h <;>
    obtain ⟨e', hok', rfl⟩ | ⟨r', herr', rfl⟩ := exec_eq_next hu
  · have hst : e'.mapState hide = e.mapState hide := by simpa [hok, hok'] using he
    rw [← hh.completeStep _ e', hst, hh.completeStep]
  · simp [hok, herr'] at he
  · simp [herr, hok'] at he
  · have hr : r' = r := by simpa [herr, herr'] using he
    rw [← hh.takeFault s', hs, hr, hh.takeFault]

/-! ### Overwriting what no instruction computes from -/

/-- `f` overwrites nothing of parameters, memory, pc, deck, cursor and output, and so commutes with the writes of memory,
cursor and output. -/
structure ActsBeside (f : State → State) : Prop where
  cfg : ∀ s, (f s).cfg = s.cfg
  mem : ∀ s, (f s).mem = s.mem
  pc : ∀ s, (f s).pc = s.pc
  deck : ∀ s, (f s).deck = s.deck
  cursor : ∀ s, (f s).cursor = s.cursor
  setMem : ∀ s m, f (s.setMem m) = (f s).setMem m
  advanceCursor : ∀ s, f s.advanceCursor = (f s).advanceCursor
  outEmit : ∀ s v, f (s.outEmit v) = (f s).outEmit v

/-- `f` leaves the accumulator alone. -/
structure KeepsAcc (f : State → State) : Prop where
  acc : ∀ s, (f s).acc = s.acc
  setAcc : ∀ s v, f (s.setAcc v) = (f s).setAcc v

section
variable {f : State → State}

theorem ActsBeside.memRead_eq (hf : ActsBeside f) (s : State) (a : Nat) : memRead (f s) a = memRead s a := by
  rw [memRead, memRead, hf.mem]

theorem ActsBeside.memWrite_eq (hf : ActsBeside f) (s : State) (a : Nat) (v : Int) :
    memWrite (f s) a v = f <$> memWrite s a v := by
  by_cases ha : a ≤ 99
  · by_cases hv : inCell v
    · rw [memWrite_of_ok ha hv, memWrite_of_ok ha hv, hf.mem, ← hf.setMem]; rfl
    · rw [memWrite_of_not_inCell ha hv, memWrite_of_not_inCell ha hv]; rfl
  · simp [memWrite, ha]

theorem ActsBeside.deckRead_eq (hf : ActsBeside f) (s : State) : deckRead (f s) = Prod.map id f <$> deckRead s := by
  rw [deckRead, deckRead, hf.deck, hf.cursor, hf.cfg]
  cases s.deck[s.cursor]? with
  | some v => simp [hf.advanceCursor]
  | none => cases s.cfg.deckExhausted <;> simp [hf.advanceCursor]

theorem ActsBeside.accRead_eq (hf : ActsBeside f) (hk : KeepsAcc f) (s : State) : accRead (f s) = accRead s := by
  rw [accRead, accRead, hk.acc, hf.pc]

theorem ActsBeside.shiftCode_eq (hf : ActsBeside f) (s : State) (a : Nat) : shiftCode (f s) a = shiftCode s a := by
  rw [shiftCode, shiftCode, hf.memRead_eq]

/-- An effect commutes with `f` if `f` keeps the accumulator or the instruction does not touch it. -/
theorem ActsBeside.effectOf_eq (hf : ActsBeside f) (s : State) (i : Instr)
    (hacc : readsAcc i = true ∨ writesAcc i = true → KeepsAcc f) :
    effectOf i (f s) = Effected.mapState f <$> effectOf i s := by
  cases i with
  | input a => simp [effectOf, inputEffect, hf.deckRead_eq, hf.memWrite_eq, Effected.mapState]
  | output a => simp [effectOf, outputEffect, hf.memRead_eq, hf.outEmit, Effected.mapState]
  | load a => simp [effectOf, loadEffect, hf.memRead_eq, (hacc (.inr rfl)).setAcc, Effected.mapState]
  | add a =>
    have hk := hacc (.inl rfl)
    simp [effectOf, addEffect, hf.accRead_eq hk, hf.memRead_eq, hf.cfg, hk.setAcc, Effected.mapState]
  | sub a =>
    have hk := hacc (.inl rfl)
    simp [effectOf, subEffect, hf.accRead_eq hk, hf.memRead_eq, hf.cfg, hk.setAcc, Effected.mapState]
  | shift a =>
    have hk := hacc (.inl rfl)
    simp [effectOf, shiftEffect, hf.shiftCode_eq, hf.accRead_eq hk, hf.cfg, hk.setAcc, Effected.mapState]
  | store a => simp [effectOf, storeEffect, hf.accRead_eq (hacc (.inl rfl)), hf.memWrite_eq, Effected.mapState]
  | test a => simp [effectOf, testEffect, hf.accRead_eq (hacc (.inl rfl)), Effected.mapState]
  | jump a => simp [effectOf, jumpEffect, hf.memWrite_eq, hf.pc, Effected.mapState]
  | halt | unrecognised => rfl
  | refusedNegative w =>
    rw [effectOf, effectOf, refusedNegativeEffect, refusedNegativeEffect, hf.cfg]
    cases s.cfg.decodeNeg <;> rfl

end

/-! ### The accumulator -/

/-- The state with another accumulator. -/
def State.withAcc (x : Option Int) (s : State) : State := { s with acc := x }

theorem actsBeside_withAcc (x : Option Int) : ActsBeside (State.withAcc x) := by constructor <;> intros <;> rfl

theorem stepEndIgnores_withAcc (y : Option Int) : StepEndIgnores (State.withAcc y) where
  completeStep op e := by
    have hpc : nextPc (e.mapState (State.withAcc y)) = nextPc e := nextPc_mapState e rfl
    apply State.eq_of_fields <;> simp [State.withAcc, completeStep_runState, completeStep_haltCause, hpc]
  takeFault _ _ := rfl

/-- The effect of an instruction that does not read the accumulator is the same from every accumulator, but for the
accumulator it leaves (R22). LOAD alone overwrites it. -/
theorem effectOf_withAcc {i : Instr} (h : readsAcc i = false) (s : State) (x y : Option Int) :
    Effected.mapState (State.withAcc y) <$> effectOf i (s.withAcc x) =
      Effected.mapState (State.withAcc y) <$> effectOf i s := by
  cases hw : writesAcc i with
  | false =>
    rw [(actsBeside_withAcc x).effectOf_eq s i (by simp [h, hw]), Functor.map_map]
    rfl
  | true =>
    cases i with
    | load a => rfl
    | add | sub | shift => cases h
    | _ => cases hw

/-- Settles O36: who writes and who fills the accumulator is read off the rules of the completing effects; that the
others do not read it, off their effects once the accumulator is hidden. -/
theorem accumulatorIsTouchedOnlyAsListed : Obligations.AccumulatorIsTouchedOnlyAsListed := by
  intro i s t h
  refine ⟨fun hw => ?_, fun hs ht => ?_, fun hr x => ?_⟩
  · obtain ⟨e, he, rfl⟩ | ⟨r, rfl⟩ := exec_completes_or_faults h
    · exact (completeStep_acc _ e).trans (he.acc_eq hw)
    · rfl
  · obtain ⟨e, he, rfl⟩ | ⟨r, rfl⟩ := exec_completes_or_faults h
    · exact he.eq_load_of_acc_none hs (by simpa using ht)
    · exact absurd hs ht
  · exact (stepEndIgnores_withAcc t.acc).exec_agrees (s := s) (s' := s.withAcc x) rfl (effectOf_withAcc hr s x t.acc) h

/-! ### The status registers -/

/-- The state with other values in ir, halt_cause and fault_code. -/
def State.withStatus (x : Ir) (k : HaltCause) (f : FaultCode) (s : State) : State :=
  { s with ir := x, haltCause := k, faultCode := f }

theorem actsBeside_withStatus (x : Ir) (k : HaltCause) (f : FaultCode) : ActsBeside (State.withStatus x k f) := by
  constructor <;> intros <;> rfl

theorem keepsAcc_withStatus (x : Ir) (k : HaltCause) (f : FaultCode) : KeepsAcc (State.withStatus x k f) where
  acc _ := rfl
  setAcc _ _ := rfl

theorem stepEndIgnores_withStatus (x : Ir) (k : HaltCause) (f : FaultCode) :
    StepEndIgnores (State.withStatus x k f) where
  completeStep op e := by
    have hpc : nextPc (e.mapState (State.withStatus x k f)) = nextPc e := nextPc_mapState e rfl
    apply State.eq_of_fields <;> simp [State.withStatus, completeStep_runState, hpc]
  takeFault _ _ := rfl

/-- A step whose fetch raises takes the fault. -/
theorem step_of_fetch_error {s : State} {r : Raise} (hr : s.runState = .running) (hf : fetch s = .error r) :
    step s = .next (takeFault s r) := by
  simp only [step, hr, hf]

/-- A step whose fetched word decodes is the meaning of the instruction. -/
theorem step_of_decode {s : State} {w : Int} {i : Instr} (hr : s.runState = .running) (hf : fetch s = .ok w)
    (hd : decode w = .ok i) : step s = exec i s := by
  simp only [step, hr, hf, hd]

/-- Settles O39: the fetch, the decoding and the effect are the same whatever the three hold, and the end of the step
only writes them. -/
theorem statusRegistersAreNeverRead : Obligations.StatusRegistersAreNeverRead := by
  intro s t x k f h
  have hbeside := actsBeside_withStatus x k f
  have hends := stepEndIgnores_withStatus t.ir t.haltCause t.faultCode
  have hfetch : fetch (s.withStatus x k f) = fetch s := hbeside.memRead_eq s s.pc
  obtain ⟨hrun, ⟨r, hf, rfl⟩ | ⟨w, i, hf, hd, hexec⟩⟩ := step_eq_next h
  · exact ⟨_, step_of_fetch_error hrun (hfetch.trans hf), rfl⟩
  · obtain ⟨u, hu, hut⟩ := hends.exec_agrees (s := s) (s' := s.withStatus x k f) rfl
      (by rw [hbeside.effectOf_eq s i fun _ => keepsAcc_withStatus x k f, Functor.map_map]; rfl) hexec
    exact ⟨u, (step_of_decode (s := s.withStatus x k f) hrun (hfetch.trans hf) hd).trans hu, hut⟩

end Sys2Proof.Machine
end


section
/-! PROOFS. Every step keeps the invariant of the engine's states (spec/10_state.md R20 to R35, spec/40_cycle.md R87). -/

namespace Sys2Proof.Machine

/-! ### The decoder gives instructions with two-digit addresses -/

theorem decodeFields_wellFormed {op a w : Nat} (ha : a ≤ 99) (hw : w ≤ 32767) (hop : op ≤ 9 ∨ 1000 ≤ w) :
    (decodeFields op a w).wellFormed = true := by
  by_cases h : op ≤ 9
  · interval_cases op <;> exact decide_eq_true ha
  · rw [decodeFields_of_ge (by omega), Instr.wellFormed]
    exact decide_eq_true (by omega)

/-- Every instruction the decoder gives is well-formed (R58 to R60). -/
theorem decode_wellFormed {w : Int} {i : Instr} (h : decode w = .ok i) : i.wellFormed = true := by
  by_cases hw : inCell w
  · by_cases hpos : 0 ≤ w
    · rw [decode_of_nonneg hw hpos, Except.ok.injEq] at h
      rw [← h, decodeNonneg, opcodeField, addressField]
      exact decodeFields_wellFormed (by omega) (by omega) (by omega)
    · by_cases hneg : w ≤ -100
      · rw [decode_of_le hw hneg, Except.ok.injEq] at h
        rw [← h]
        exact decide_eq_true (by omega)
      · rw [decode_of_refused (by omega) (by omega), Except.ok.injEq] at h
        rw [← h]
        exact decide_eq_true (by omega)
  · simp [decode_of_not_inCell hw] at h

/-! ### SHIFT stays in the accumulator range -/

/-- The accumulator range holds all that lies between 0 and one of its values. -/
theorem inAcc_of_between {c : Config} {x y : Int} (hx : inAcc c x) (h : 0 ≤ y ∧ y ≤ x ∨ x ≤ y ∧ y ≤ 0) : inAcc c y := by
  have hpow : 0 < 2 ^ (c.accBits - 1) := Nat.two_pow_pos _
  simp only [inAcc, accMin, accMax] at hx ⊢
  omega

/-- A division by 10 goes towards 0, whichever way it rounds (R96). -/
theorem divTen_between {c : Config} {x y : Int} (h : divTen c x = .ok y) : 0 ≤ y ∧ y ≤ x ∨ x ≤ y ∧ y ≤ 0 := by
  by_cases hx : x < 0 ∧ x % 10 ≠ 0
  · rw [divTen, if_pos hx] at h
    cases hm : c.shiftDiv with
    | undecided => simp [hm] at h
    | trunc =>
      simp only [hm, Except.ok.injEq, trunc10, Int.tdiv_eq_ediv, show Int.sign 10 = 1 from rfl] at h
      omega
    | floor =>
      simp only [hm, Except.ok.injEq, floor10, Int.fdiv_eq_ediv] at h
      omega
  · simp only [divTen, if_neg hx, Except.ok.injEq] at h
    omega

theorem divTens_inAcc {c : Config} {n : Nat} {x y : Int} (hx : inAcc c x) (h : divTens c n x = .ok y) : inAcc c y := by
  induction n generalizing x with
  | zero => rwa [← Except.ok.inj h]
  | succ n ih =>
    cases hd : divTen c x with
    | error r => simp [divTens, hd] at h
    | ok z => exact ih (inAcc_of_between hx (divTen_between hd)) (by simpa [divTens, hd] using h)

theorem timesTen_inAcc {c : Config} {n : Nat} {x y : Int} (hx : inAcc c x) (h : timesTen c n x = .ok y) : inAcc c y := by
  induction n generalizing x with
  | zero => rwa [← Except.ok.inj h]
  | succ n ih =>
    cases hm : checkAcc c (x * 10) with
    | error r => simp [timesTen, hm] at h
    | ok z =>
      obtain ⟨hr, rfl⟩ := checkAcc_eq_ok_iff.1 hm
      exact ih hr (by simpa [timesTen, hm] using h)

/-- A shifted value is in range: every product is checked, and every division goes towards 0 (R96). -/
theorem shiftValue_inAcc {c : Config} {code x y : Int} (hx : inAcc c x) (h : shiftValue c code x = .ok y) :
    inAcc c y := by
  cases hm : timesTen c (shiftLeftCount code) x with
  | error r => simp [shiftValue, hm] at h
  | ok z => exact divTens_inAcc (timesTen_inAcc hx hm) (by simpa [shiftValue, hm] using h)

/-! ### The invariant -/

/-- A cell value is in the range of every legal accumulator (R9, R94). -/
theorem inAcc_of_inCell {c : Config} {v : Int} (hc : configOk c) (hv : inCell v) : inAcc c v :=
  accumulatorRangeHoldsEveryCellValue.1 c v hc.1 hv

/-- An effect leaves the accumulator NONE or in range (R22). -/
theorem Completes.acc_ok {s : State} {i : Instr} {e : Effected} (h : Completes s i e) (hs : s.Inv) :
    accOk s.cfg e.st.acc := by
  cases h with
  | load => exact inAcc_of_inCell hs.cfg_ok (Memory.read_inCell hs.mem_wf _)
  | add _ hr | sub _ hr => exact hr
  | shift hx hy =>
    have hx' := hs.acc_ok
    rw [hx] at hx'
    exact shiftValue_inAcc hx' hy
  | _ => exact hs.acc_ok

/-- In a RUNNING state of a run neither a halt cause nor a fault code is set (R29, R30). -/
theorem State.Inv.status_none {s : State} (hs : s.Inv) (hr : s.runState = .running) :
    s.haltCause = .none ∧ s.faultCode = .none :=
  ⟨by simpa [hr] using hs.halt_iff, by simpa [hr] using hs.fault_iff⟩

/-- Taking a fault while RUNNING keeps the invariant: only run_state and fault_code change, together (R110, R111). -/
theorem State.Inv.takeFault {s : State} (hs : s.Inv) (hr : s.runState = .running) (r : Raise) :
    (takeFault s r).Inv where
  cfg_ok := hs.cfg_ok
  mem_wf := hs.mem_wf
  acc_ok := hs.acc_ok
  pc_le := hs.pc_le
  pc_lt _ := hs.pc_lt (by simp [hr])
  halt_iff := by simp [takeFault_eq, (hs.status_none hr).1]
  fault_iff := by simp [takeFault_eq, r.code_ne_none]
  deck_len := hs.deck_len
  cursor_le := hs.cursor_le
  out_ok := hs.out_ok

/-- Completing a well-formed instruction while RUNNING keeps the invariant. -/
theorem State.Inv.completeStep {s : State} {i : Instr} {e : Effected} (hs : s.Inv) (hr : s.runState = .running)
    (hi : i.wellFormed = true) (he : Completes s i e) (op : Ir) : (completeStep op e).Inv where
  cfg_ok := by rw [completeStep_cfg, he.cfg_eq]; exact hs.cfg_ok
  mem_wf := by rw [completeStep_mem]; exact he.mem_wf hs.mem_wf
  acc_ok := by rw [completeStep_cfg, completeStep_acc, he.cfg_eq]; exact he.acc_ok hs
  pc_le := by
    have hpc := hs.pc_lt (by simp [hr])
    have hnext := he.nextPc_le hi
    rw [completeStep_pc]; omega
  pc_lt := by
    rw [completeStep_pc, completeStep_runState]
    intro h
    by_contra hpc
    exact h (if_pos (.inr (by omega)))
  halt_iff := by
    rw [completeStep_haltCause, completeStep_runState, he.haltCause_eq, he.runState_eq, (hs.status_none hr).1, hr]
    by_cases hk : e.halt = .none <;> by_cases hpc : 100 ≤ nextPc e <;> simp [hk, hpc]
  fault_iff := by
    rw [completeStep_faultCode, completeStep_runState, he.faultCode_eq, he.runState_eq, (hs.status_none hr).2, hr]
    split <;> simp
  deck_len := by rw [completeStep_deck, he.deck_eq]; exact hs.deck_len
  cursor_le := by
    rw [completeStep_cfg, completeStep_cursor, completeStep_deck, he.cfg_eq, he.deck_eq]
    intro hmode
    obtain hc | ⟨hc, -, hlt⟩ := he.cursor_cases
    · rw [hc]; exact hs.cursor_le hmode
    · rw [hc]; exact hlt hmode
  out_ok := by
    rw [completeStep_out]
    obtain ho | ⟨a, -, ho⟩ := he.out_cases
    · rw [ho]; exact hs.out_ok
    · rw [ho]
      intro v hv
      obtain hv | hv := List.mem_append.1 hv
      · exact hs.out_ok v hv
      · rw [List.mem_singleton.1 hv]; exact Memory.read_inCell hs.mem_wf a

/-- Settles O31: a step is taken while RUNNING, and ends in a fault or completes the instruction that was decoded. -/
theorem stepKeepsTheInvariant : Obligations.StepKeepsTheInvariant := by
  intro s t hs h
  obtain ⟨hr, ⟨r, -, rfl⟩ | ⟨w, i, -, hd, hexec⟩⟩ := step_eq_next h
  · exact hs.takeFault hr r
  · obtain ⟨e, he, rfl⟩ | ⟨r, rfl⟩ := exec_completes_or_faults hexec
    · exact hs.completeStep hr (decode_wellFormed hd) he _
    · exact hs.takeFault hr r

end Sys2Proof.Machine
end

section
/-! PROOFS. The primitives on memory and deck (spec/20_memory.md R38, R39, R41), and which cell an instruction writes
with what value (R46, R47, R52). -/

namespace Sys2Proof.Machine
open Sys2Proof.Slice0

/-! ### The primitives -/

theorem memRead_of_gt {s : State} {a : Nat} (h : 99 < a) : memRead s a = .error (.addressRange a) :=
  if_neg (Nat.not_le.2 h)

theorem memWrite_of_gt {s : State} {a : Nat} {v : Int} (h : 99 < a) : memWrite s a v = .error (.addressRange a) :=
  if_neg (Nat.not_le.2 h)

theorem deckRead_of_some {s : State} {v : Int} (h : s.deck[s.cursor]? = some v) :
    deckRead s = .ok (v, s.advanceCursor) := by
  simp only [deckRead, h]

theorem deckRead_of_none_fault {s : State} (h : s.deck[s.cursor]? = none) (hm : s.cfg.deckExhausted = .fault) :
    deckRead s = .error (.deckExhausted s.cursor) := by
  simp only [deckRead, h, hm]

theorem deckRead_of_none_zero {s : State} (h : s.deck[s.cursor]? = none) (hm : s.cfg.deckExhausted = .zero) :
    deckRead s = .ok (0, s.advanceCursor) := by
  simp only [deckRead, h, hm]

/-- Settles O18: the two sides of the address guard. -/
theorem memReadGuardsTheAddress : Obligations.MemReadGuardsTheAddress := fun _ _ => ⟨memRead_of_gt, memRead_of_le⟩

/-- Settles O19: the two guards, then the laws of memory for the written cell, the other cells and the canonical form. -/
theorem memWriteWritesOneWholeCell : Obligations.MemWriteWritesOneWholeCell := by
  intro s a v hwf
  refine ⟨memWrite_of_gt, memWrite_of_not_inCell, fun ha hv => ⟨_, memWrite_of_ok ha hv, ?_, ?_, ?_, rfl⟩⟩
  · exact Memory.read_write_same hwf a v
  · exact fun b hb => Memory.read_write_other v hb
  · exact Memory.write_wf hwf ha hv

/-- Settles O20: the cursor is on the deck or past it, and past it the mode decides. -/
theorem deckReadTakesTheNextValue : Obligations.DeckReadTakesTheNextValue := fun _ =>
  ⟨fun _ => deckRead_of_some, fun hlen => deckRead_of_none_fault (List.getElem?_eq_none hlen),
    fun hlen => deckRead_of_none_zero (List.getElem?_eq_none hlen)⟩

/-! ### A value that is no cell value -/

theorem inputEffect_of_not_inCell {a : Nat} {s : State} {v : Int} (h : s.deck[s.cursor]? = some v) (ha : a ≤ 99)
    (hv : ¬ inCell v) : inputEffect a s = .error (.cellRange a v) := by
  simp only [inputEffect, bind, Except.bind, deckRead_of_some h, memWrite_of_not_inCell ha hv]

theorem storeEffect_of_not_inCell {a : Nat} {s : State} {x : Int} (hx : s.acc = some x) (ha : a ≤ 99)
    (hv : ¬ inCell x) : storeEffect a s = .error (.cellRange a x) := by
  simp only [storeEffect, bind, Except.bind, accRead_of_some hx, memWrite_of_not_inCell ha hv]

/-- An instruction whose effect raises takes the fault, from the state before the effect (R111). -/
theorem exec_of_effect_error {i : Instr} {s : State} {r : Raise} (h : effectOf i s = .error r) :
    exec i s = .next (takeFault s r) := by
  rw [exec_eq_finishStep, h]; rfl

/-- An instruction whose effect raises nothing completes the step with it. -/
theorem exec_of_effect_ok {i : Instr} {s : State} {e : Effected} (h : effectOf i s = .ok e) :
    exec i s = .next (completeStep (irAfter i) e) := by
  rw [exec_eq_finishStep, h]; rfl

/-- Settles O3: the MemWrite of IN and of STORE raises CELL_RANGE, and the fault discards what IN did to the cursor. -/
theorem storingOutsideTheCellRangeFaults : Obligations.StoringOutsideTheCellRangeFaults := by
  intro s a v _ ha hv
  exact ⟨fun hdeck => exec_of_effect_error (i := .input a) (inputEffect_of_not_inCell hdeck ha hv),
    fun hacc => exec_of_effect_error (i := .store a) (storeEffect_of_not_inCell hacc ha hv)⟩

/-! ### The cell an instruction writes -/

/-- The value an instruction that completes leaves in the cell it stores to (R91, R97, R100). Of the memory it reads
nothing. -/
def storedValue : Instr → State → Int
  | .input _, s => s.deck[s.cursor]?.getD 0
  | .store _, s => s.acc.getD 0
  | .jump _, s => returnWord s.pc
  | _, _ => 0

theorem storedValue_setMem (i : Instr) (s : State) (m : Memory) : storedValue i (s.setMem m) = storedValue i s := by
  cases i <;> rfl

/-- An effect writes its stored value to its stored cell, and no memory where it has none (R46). -/
theorem Completes.mem_cases {s : State} {i : Instr} {e : Effected} (h : Completes s i e) :
    (storedCell i = none ∧ e.st.mem = s.mem) ∨
      ∃ a, storedCell i = some a ∧ e.st.mem = s.mem.write a (storedValue i s) := by
  cases h with
  | input hdeck =>
    refine .inr ⟨_, rfl, ?_⟩
    obtain hv | ⟨hend, -, rfl⟩ := hdeck
    · simp [storedValue, hv]
    · simp [storedValue, hend]
  | store hacc => exact .inr ⟨_, rfl, by simp [storedValue, hacc]⟩
  | jump => exact .inr ⟨_, rfl, rfl⟩
  | _ => exact .inl ⟨rfl, rfl⟩

/-- Settles O38: a fault writes no memory, and an effect one cell. -/
theorem noOtherCellIsWritten : Obligations.NoOtherCellIsWritten := by
  intro i s t b h hb
  obtain ⟨e, he, rfl⟩ | ⟨r, rfl⟩ := exec_completes_or_faults h
  · rw [completeStep_mem]
    obtain ⟨-, hmem⟩ | ⟨a, ha, hmem⟩ := he.mem_cases
    · rw [hmem]
    · rw [hmem]
      exact Memory.read_write_other _ fun hba => hb (hba ▸ ha)
  · rfl

/-- After an unfaulted instruction its stored cell holds the stored value. -/
theorem exec_read_storedCell {i : Instr} {s t : State} {b : Nat} (h : exec i s = .next t) (ht : t.runState ≠ .faulted)
    (hwf : s.mem.wf) (hb : storedCell i = some b) : t.mem.read b = storedValue i s := by
  obtain ⟨e, he, rfl⟩ | ⟨r, rfl⟩ := exec_completes_or_faults h
  · obtain ⟨hnone, -⟩ | ⟨a, ha, hmem⟩ := he.mem_cases
    · simp [hb] at hnone
    · obtain rfl : a = b := Option.some.inj (ha.symm.trans hb)
      rw [completeStep_mem, hmem]
      exact Memory.read_write_same hwf a _
  · exact absurd rfl ht

/-- An instruction that ends in FAULTED leaves memory alone (R110). -/
theorem exec_mem_of_faulted {i : Instr} {s t : State} (h : exec i s = .next t) (hs : s.runState = .running)
    (ht : t.runState = .faulted) : t.mem = s.mem := by
  obtain ⟨e, he, rfl⟩ | ⟨r, rfl⟩ := exec_completes_or_faults h
  · obtain hk | hk := completeStep_runState_cases (irAfter i) e
    · simp [hk] at ht
    · simp [hk, he.runState_eq, hs] at ht
  · rfl

/-! ### STORE into the instruction stream -/

/-- The step of a STORE of a cell value (R97). -/
theorem step_of_store {s : State} {a : Nat} {v : Int} (hs : Ready s) (hw : s.mem.read s.pc = 600 + (a : Int))
    (ha : a ≤ 99) (hacc : s.acc = some v) (hv : inCell v) :
    step s = .next (completeStep (.opcode 6) { st := s.setMem (s.mem.write a v) }) := by
  obtain ⟨hrun, hpc⟩ := hs
  have hdecode : decode (s.mem.read s.pc) = .ok (.store a) := decode_word (op := 6) (by omega) ha (by rw [hw]; rfl)
  rw [step_of_decode hrun (memRead_of_le hpc) hdecode]
  exact exec_of_effect_ok (i := .store a) (storeEffect_of_inCell hacc ha hv)

/-- Settles O47: the STORE completes at pc + 1 with the value in its cell, and while RUNNING the next fetch reads it. -/
theorem storedWordIsExecutedNext : Obligations.StoredWordIsExecutedNext := by
  intro s v hs hwf hpc hacc hv
  refine ⟨fun hnext => ?_, fun hown => ?_⟩
  · refine ⟨_, step_of_store hs (a := s.pc + 1) hnext (by omega) hacc hv, by simp [nextPc], fun i hi => ?_⟩
    refine step_of_decode ?_ ?_ hi
    · rw [completeStep_runState, if_neg (by simp [nextPc]; omega)]
      exact hs.1
    · rw [fetch, completeStep_pc, memRead_of_le (by simp [nextPc]; omega), completeStep_mem]
      exact congrArg _ (Memory.read_write_same hwf (s.pc + 1) v)
  · refine ⟨_, step_of_store hs hown hs.2 hacc hv, by simp [nextPc], ?_, by simp [hacc]⟩
    simpa using Memory.read_write_same hwf s.pc v

end Sys2Proof.Machine
end

section
/-! PROOFS. Which faults an instruction can raise (spec/60_exceptions.md R106), and that ADDRESS_RANGE is none of them
(spec/20_memory.md R40). -/

namespace Sys2Proof.Machine
open Sys2Proof.Slice0

/-! ### Raises of the primitives -/

/-- Whatever `x` raises has its code in `codes`. -/
def RaisesIn (codes : List FaultCode) {α : Type} (x : Except Raise α) : Prop :=
  ∀ r, x = .error r → r.code ∈ codes

section
variable {codes : List FaultCode} {α β : Type}

theorem raisesIn_ok (v : α) : RaisesIn codes (.ok v : Except Raise α) := fun _ h => by cases h

theorem raisesIn_error {r : Raise} (hr : r.code ∈ codes) : RaisesIn codes (.error r : Except Raise α) :=
  fun _ h => by cases h; exact hr

theorem RaisesIn.bind {x : Except Raise α} {f : α → Except Raise β} (hx : RaisesIn codes x)
    (hf : ∀ v, RaisesIn codes (f v)) : RaisesIn codes (x >>= f) := by
  cases x with
  | error r => exact raisesIn_error (hx r rfl)
  | ok v => exact hf v

theorem memRead_raisesIn {s : State} {a : Nat} (ha : a ≤ 99) : RaisesIn codes (memRead s a) := by
  rw [memRead_of_le ha]; exact raisesIn_ok _

theorem memWrite_raisesIn (hc : .cellRange ∈ codes) {s : State} {a : Nat} {v : Int} (ha : a ≤ 99) :
    RaisesIn codes (memWrite s a v) := by
  by_cases hv : inCell v
  · rw [memWrite_of_ok ha hv]; exact raisesIn_ok _
  · rw [memWrite_of_not_inCell ha hv]; exact raisesIn_error hc

theorem deckRead_raisesIn (hc : .deckExhausted ∈ codes) (s : State) : RaisesIn codes (deckRead s) := by
  cases hv : s.deck[s.cursor]? with
  | some v => rw [deckRead_of_some hv]; exact raisesIn_ok _
  | none =>
    cases hm : s.cfg.deckExhausted with
    | fault => rw [deckRead_of_none_fault hv hm]; exact raisesIn_error hc
    | zero => rw [deckRead_of_none_zero hv hm]; exact raisesIn_ok _

theorem accRead_raisesIn (hc : .accUnwritten ∈ codes) (s : State) : RaisesIn codes (accRead s) := by
  cases hx : s.acc with
  | some x => rw [accRead_of_some hx]; exact raisesIn_ok _
  | none => rw [accRead_of_none hx]; exact raisesIn_error hc

theorem checkAcc_raisesIn (hc : .accOverflow ∈ codes) (c : Config) (v : Int) : RaisesIn codes (checkAcc c v) := by
  by_cases hv : inAcc c v
  · rw [checkAcc_of_inAcc hv]; exact raisesIn_ok _
  · rw [checkAcc_of_not_inAcc hv]; exact raisesIn_error hc

theorem shiftCode_raisesIn (hc : .shiftCodeRange ∈ codes) {s : State} {a : Nat} (ha : a ≤ 99) :
    RaisesIn codes (shiftCode s a) := by
  rw [shiftCode, memRead_of_le ha]
  by_cases hcode : 0 ≤ s.mem.read a ∧ s.mem.read a ≤ 99
  · simp only [if_pos hcode]; exact raisesIn_ok _
  · simp only [if_neg hcode]; exact raisesIn_error hc

theorem timesTen_raisesIn (hc : .accOverflow ∈ codes) (c : Config) (n : Nat) (x : Int) :
    RaisesIn codes (timesTen c n x) := by
  induction n generalizing x with
  | zero => exact raisesIn_ok x
  | succ n ih =>
    have hstep : timesTen c (n + 1) x = checkAcc c (x * 10) >>= timesTen c n := by
      rw [timesTen]; cases checkAcc c (x * 10) <;> rfl
    rw [hstep]
    exact (checkAcc_raisesIn hc c _).bind ih

theorem divTen_raisesIn (hc : .shiftRounding ∈ codes) (c : Config) (x : Int) : RaisesIn codes (divTen c x) := by
  by_cases hx : x < 0 ∧ x % 10 ≠ 0
  · rw [divTen, if_pos hx]
    cases c.shiftDiv with
    | undecided => exact raisesIn_error hc
    | trunc | floor => exact raisesIn_ok _
  · rw [divTen, if_neg hx]; exact raisesIn_ok _

theorem divTens_raisesIn (hc : .shiftRounding ∈ codes) (c : Config) (n : Nat) (x : Int) :
    RaisesIn codes (divTens c n x) := by
  induction n generalizing x with
  | zero => exact raisesIn_ok x
  | succ n ih =>
    have hstep : divTens c (n + 1) x = divTen c x >>= divTens c n := by
      rw [divTens]; cases divTen c x <;> rfl
    rw [hstep]
    exact (divTen_raisesIn hc c x).bind ih

theorem shiftValue_raisesIn (ho : .accOverflow ∈ codes) (hr : .shiftRounding ∈ codes) (c : Config) (code x : Int) :
    RaisesIn codes (shiftValue c code x) := by
  have hbind : shiftValue c code x = timesTen c (shiftLeftCount code) x >>= divTens c (shiftRightCount code) := by
    rw [shiftValue]; cases timesTen c (shiftLeftCount code) x <;> rfl
  rw [hbind]
  exact (timesTen_raisesIn ho c _ x).bind (divTens_raisesIn hr c _)

end

/-! ### Raises of the instructions -/

/-- The faults an instruction can raise, in the order of its pseudocode (R106, column "raised by"). -/
@[simp] def raiseCodes : Instr → List FaultCode
  | .input _ => [.deckExhausted, .cellRange]
  | .add _ => [.accUnwritten, .accOverflow]
  | .sub _ => [.accUnwritten, .accOverflow]
  | .shift _ => [.shiftCodeRange, .accUnwritten, .accOverflow, .shiftRounding]
  | .store _ => [.accUnwritten, .cellRange]
  | .test _ => [.accUnwritten]
  | .refusedNegative _ => [.negativeWord]
  | .output _ => []
  | .load _ => []
  | .jump _ => []
  | .halt _ => []
  | .unrecognised _ => []

/-- A well-formed instruction at one of the 100 addresses raises nothing but the faults listed for it. -/
theorem effectOf_raisesIn {i : Instr} {s : State} (hi : i.wellFormed = true) (hpc : s.pc ≤ 99) :
    RaisesIn (raiseCodes i) (effectOf i s) := by
  cases i with
  | input a =>
    have ha : a ≤ 99 := of_decide_eq_true hi
    exact (deckRead_raisesIn (by simp) s).bind fun _ => (memWrite_raisesIn (by simp) ha).bind fun _ => raisesIn_ok _
  | output a | load a =>
    have ha : a ≤ 99 := of_decide_eq_true hi
    exact (memRead_raisesIn ha).bind fun _ => raisesIn_ok _
  | add a | sub a =>
    have ha : a ≤ 99 := of_decide_eq_true hi
    exact (accRead_raisesIn (by simp) s).bind fun _ => (memRead_raisesIn ha).bind fun _ =>
      (checkAcc_raisesIn (by simp) s.cfg _).bind fun _ => raisesIn_ok _
  | shift a =>
    have ha : a ≤ 99 := of_decide_eq_true hi
    exact (shiftCode_raisesIn (by simp) ha).bind fun _ => (accRead_raisesIn (by simp) s).bind fun _ =>
      (shiftValue_raisesIn (by simp) (by simp) s.cfg _ _).bind fun _ => raisesIn_ok _
  | store a =>
    have ha : a ≤ 99 := of_decide_eq_true hi
    exact (accRead_raisesIn (by simp) s).bind fun _ => (memWrite_raisesIn (by simp) ha).bind fun _ => raisesIn_ok _
  | test a => exact (accRead_raisesIn (by simp) s).bind fun _ => raisesIn_ok _
  | jump a => rw [effectOf, jumpEffect_of_pc_le hpc]; exact raisesIn_ok _
  | halt | unrecognised => exact raisesIn_ok _
  | refusedNegative w =>
    rw [effectOf, refusedNegativeEffect]
    cases s.cfg.decodeNeg with
    | fault => exact raisesIn_error (by simp [Raise.code])
    | halt => exact raisesIn_ok _

theorem addressRange_not_mem_raiseCodes (i : Instr) : .addressRange ∉ raiseCodes i := by
  cases i <;> simp

/-- Settles O41: pc is on a cell, so the fetch raises nothing; the decoder gives two-digit addresses, so no instruction
raises ADDRESS_RANGE; and a completed step leaves the fault code NONE. -/
theorem addressRangeNeverFires : Obligations.AddressRangeNeverFires := by
  intro s t hs h
  obtain ⟨hrun, hcases⟩ := step_eq_next h
  have hpc : s.pc ≤ 99 := hs.pc_lt (by simp [hrun])
  obtain ⟨r, hf, -⟩ | ⟨w, i, -, hd, hexec⟩ := hcases
  · rw [fetch, memRead_of_le hpc] at hf
    cases hf
  · obtain ⟨e, he, rfl⟩ | ⟨r, hr, rfl⟩ := exec_eq_next hexec
    · rw [completeStep_faultCode, (effectOf_eq_ok he).faultCode_eq, (hs.status_none hrun).2]
      decide
    · have hmem : r.code ∈ raiseCodes i := effectOf_raisesIn (decode_wellFormed hd) hpc r hr
      exact ne_of_mem_of_not_mem hmem (addressRange_not_mem_raiseCodes i)

end Sys2Proof.Machine
end

section
/-! PROOFS. What a step reads of memory: the cells its transactions list and no others (spec/20_memory.md R46, R47).
Memory is hidden, as `StepEndIgnores` hides a piece of state. -/

namespace Sys2Proof.Machine
open Sys2Proof.Slice0

theorem stepEndIgnores_setMem (n : Memory) : StepEndIgnores (State.setMem · n) where
  completeStep op e := by
    have hpc : nextPc (e.mapState (State.setMem · n)) = nextPc e := nextPc_mapState e rfl
    apply State.eq_of_fields <;> simp [completeStep_runState, completeStep_haltCause, hpc]
  takeFault _ _ := rfl

/-! ### The primitives on another memory -/

theorem memRead_setMem {s : State} {m : Memory} {a : Nat} (h : m.read a = s.mem.read a) :
    memRead (s.setMem m) a = memRead s a := by
  rw [memRead, memRead, State.setMem_mem, h]

theorem shiftCode_setMem {s : State} {m : Memory} {a : Nat} (h : m.read a = s.mem.read a) :
    shiftCode (s.setMem m) a = shiftCode s a := by
  rw [shiftCode, shiftCode, memRead_setMem h]

theorem deckRead_setMem (s : State) (m : Memory) :
    deckRead (s.setMem m) = Prod.map id (State.setMem · m) <$> deckRead s := by
  rw [deckRead, deckRead, State.setMem_deck, State.setMem_cursor, State.setMem_cfg]
  cases s.deck[s.cursor]? with
  | some v => rfl
  | none => cases s.cfg.deckExhausted <;> rfl

@[simp] theorem accRead_setMem (s : State) (m : Memory) : accRead (s.setMem m) = accRead s := rfl

theorem memWrite_setMem (s : State) (m n : Memory) (a : Nat) (v : Int) :
    (State.setMem · n) <$> memWrite (s.setMem m) a v = (State.setMem · n) <$> memWrite s a v := by
  by_cases ha : a ≤ 99
  · by_cases hv : inCell v
    · rw [memWrite_of_ok ha hv, memWrite_of_ok ha hv]; rfl
    · rw [memWrite_of_not_inCell ha hv, memWrite_of_not_inCell ha hv]
  · rw [memWrite_of_gt (Nat.lt_of_not_le ha), memWrite_of_gt (Nat.lt_of_not_le ha)]

/-- An effect that ends in a MemWrite, and may branch, is the same on the other memory once memory is hidden. -/
theorem memWrite_bind_setMem (s : State) (m n : Memory) (a : Nat) (v : Int) (target : Option Nat) :
    Effected.mapState (State.setMem · n) <$> (memWrite (s.setMem m) a v >>= fun s1 => pure { st := s1, target }) =
      Effected.mapState (State.setMem · n) <$> (memWrite s a v >>= fun s1 => pure { st := s1, target }) := by
  have := congrArg (fun x => (fun s1 => ({ st := s1, target } : Effected)) <$> x) (memWrite_setMem s m n a v)
  simpa [Effected.mapState] using this

/-- On another memory that agrees on the cells the instruction reads, its effect is the same but for the memory. -/
theorem effectOf_setMem {i : Instr} {s : State} {m : Memory}
    (h : ∀ a, Transaction.memRead a ∈ dataTransactions i → m.read a = s.mem.read a) (n : Memory) :
    Effected.mapState (State.setMem · n) <$> effectOf i (s.setMem m) =
      Effected.mapState (State.setMem · n) <$> effectOf i s := by
  cases i with
  | input a =>
    rw [effectOf, effectOf, inputEffect, inputEffect, deckRead_setMem]
    cases deckRead s with
    | error r => rfl
    | ok p => exact memWrite_bind_setMem p.2 m n a p.1 none
  | output a => simp [effectOf, outputEffect, memRead_setMem (h a List.mem_cons_self)]; rfl
  | load a => simp [effectOf, loadEffect, memRead_setMem (h a List.mem_cons_self)]; rfl
  | add a => simp [effectOf, addEffect, memRead_setMem (h a List.mem_cons_self)]; rfl
  | sub a => simp [effectOf, subEffect, memRead_setMem (h a List.mem_cons_self)]; rfl
  | shift a => simp [effectOf, shiftEffect, shiftCode_setMem (h a List.mem_cons_self)]; rfl
  | store a =>
    rw [effectOf, effectOf, storeEffect, storeEffect, accRead_setMem]
    cases accRead s with
    | error r => rfl
    | ok x => exact memWrite_bind_setMem s m n a x none
  | test a => simp [effectOf, testEffect]; rfl
  | jump a => exact memWrite_bind_setMem s m n 99 _ _
  | halt | unrecognised => rfl
  | refusedNegative w =>
    rw [effectOf, effectOf, refusedNegativeEffect, refusedNegativeEffect, State.setMem_cfg]
    cases s.cfg.decodeNeg <;> rfl

/-! ### The step on another memory -/

theorem memWrite_mem_dataTransactions {i : Instr} {b : Nat} :
    Transaction.memWrite b ∈ dataTransactions i ↔ storedCell i = some b := by
  cases i <;> simp [dataTransactions, storedCell, eq_comm]

theorem stepTransactions_of_decode {s : State} {w : Int} {i : Instr} (hf : fetch s = .ok w) (hd : decode w = .ok i) :
    stepTransactions s = .memRead s.pc :: dataTransactions i := by
  simp only [stepTransactions, hf, hd]

/-- Settles O40: the fetch and the effect are the same on the other memory, with memory hidden. A fault writes no memory;
an instruction that completes writes its stored cell alone, with a value that depends on no memory. -/
theorem stepDependsOnlyOnTheCellsItReads : Obligations.StepDependsOnlyOnTheCellsItReads := by
  intro s t m hready hwf hmwf hagree h
  obtain ⟨hrun, ⟨r, hf, -⟩ | ⟨w, i, hf, hd, hexec⟩⟩ := step_eq_next h
  · rw [fetch, memRead_of_le hready.2] at hf
    cases hf
  · rw [stepTransactions_of_decode hf hd] at hagree ⊢
    have hfetch : fetch (s.setMem m) = .ok w := (memRead_setMem (hagree s.pc List.mem_cons_self)).trans hf
    obtain ⟨u, hu, hut⟩ := (stepEndIgnores_setMem t.mem).exec_agrees (s := s) (s' := s.setMem m) rfl
      (effectOf_setMem (fun a ha => hagree a (List.mem_cons_of_mem _ ha)) t.mem) hexec
    have hstate : u.runState = t.runState := by simpa using congrArg State.runState hut
    refine ⟨u, (step_of_decode (s := s.setMem m) hrun hfetch hd).trans hu, hut, fun ht => ?_, fun ht b => ⟨?_, ?_⟩⟩
    · exact ⟨exec_mem_of_faulted hu hrun (hstate.trans ht), exec_mem_of_faulted hexec hrun ht⟩
    · intro hb
      have hcell : storedCell i = some b := memWrite_mem_dataTransactions.1 (by simpa using hb)
      rw [exec_read_storedCell hu (hstate ▸ ht) hmwf hcell, exec_read_storedCell hexec ht hwf hcell, storedValue_setMem]
    · intro hb
      have hcell : storedCell i ≠ some b := fun hc => hb (List.mem_cons_of_mem _ (memWrite_mem_dataTransactions.2 hc))
      exact ⟨noOtherCellIsWritten i _ u b hu hcell, noOtherCellIsWritten i s t b hexec hcell⟩

end Sys2Proof.Machine
end

section
/-! PROOFS. The decimal spelling of output values (spec/20_memory.md R56). The statements about `decimalDigits` are by
induction on its fuel, for every text `acc` that follows the digits. -/

namespace Sys2Proof.Machine

/-! ### The character of a digit -/

theorem isDigit_digitChar {d : Nat} (h : d < 10) : isDigit (digitChar d) = true := by
  interval_cases d <;> decide

theorem digitChar_toNat {d : Nat} (h : d < 10) : (digitChar d).toNat - 48 = d := by
  interval_cases d <;> decide

theorem digitChar_ne_zero {d : Nat} (h : d < 10) (hpos : 0 < d) : digitChar d ≠ '0' := by
  interval_cases d <;> decide

theorem digitsValue_digitChar {d : Nat} (h : d < 10) (n : Nat) (cs : List Char) :
    digitsValue n (digitChar d :: cs) = digitsValue (10 * n + d) cs := by
  rw [digitsValue, if_pos (isDigit_digitChar h), digitChar_toNat h]

/-! ### The digits of a number -/

theorem isDigit_of_mem_decimalDigits {fuel n : Nat} {acc : List Char} (hacc : ∀ c ∈ acc, isDigit c = true) :
    ∀ c ∈ decimalDigits fuel n acc, isDigit c = true := by
  induction fuel generalizing n acc with
  | zero => exact hacc
  | succ fuel ih =>
    rw [decimalDigits]
    split
    next h => exact List.forall_mem_cons.2 ⟨isDigit_digitChar h, hacc⟩
    next => exact ih (List.forall_mem_cons.2 ⟨isDigit_digitChar (Nat.mod_lt _ (by decide)), hacc⟩)

/-- The first digit of a positive number is not 0. -/
theorem decimalDigits_eq_cons {fuel n : Nat} (hn : n < fuel) (hpos : 0 < n) (acc : List Char) :
    ∃ d ds, decimalDigits fuel n acc = d :: ds ∧ d ≠ '0' := by
  induction fuel generalizing n acc with
  | zero => omega
  | succ fuel ih =>
    rw [decimalDigits]
    split
    next h => exact ⟨_, _, rfl, digitChar_ne_zero h hpos⟩
    next h => exact ih (by omega) (by omega) _

/-- Reading the digits of `n` and then `acc` back is reading `acc` on from the value `n`. -/
theorem digitsValue_decimalDigits {fuel n : Nat} (hn : n < fuel) (acc : List Char) :
    digitsValue 0 (decimalDigits fuel n acc) = digitsValue n acc := by
  induction fuel generalizing n acc with
  | zero => omega
  | succ fuel ih =>
    rw [decimalDigits]
    split
    next h => rw [digitsValue_digitChar h, Nat.mul_zero, Nat.zero_add]
    next h => rw [ih (by omega), digitsValue_digitChar (Nat.mod_lt _ (by decide)), Nat.div_add_mod]

/-! ### The lines -/

theorem spellLine_of_nonneg {v : Int} (h : 0 ≤ v) : spellLine v = spellNat v.natAbs := if_neg (by omega)

theorem spellLine_of_neg {v : Int} (h : v < 0) : spellLine v = '-' :: spellLine (-v) := by
  rw [spellLine_of_nonneg (v := -v) (by omega), Int.natAbs_neg]; exact if_pos h

/-- Settles O48: the digits of a positive value by the three inductions on its spelling; the lines are the spellings. -/
theorem outputLinesAreMinimalDecimal : Obligations.OutputLinesAreMinimalDecimal := by
  refine ⟨by decide, fun v hv => ?_, fun v => spellLine_of_neg, fun s => ⟨List.length_map _, fun k v hk => ?_⟩⟩
  · obtain ⟨d, ds, hcons, hd⟩ := decimalDigits_eq_cons (Nat.lt_succ_self v.natAbs) (by omega) []
    have hline : spellLine v = decimalDigits (v.natAbs + 1) v.natAbs [] := spellLine_of_nonneg hv.le
    refine ⟨d, ds, hline.trans hcons, hd, ?_, ?_⟩ <;> rw [← hcons]
    · exact isDigit_of_mem_decimalDigits (by simp)
    · rw [digitsValue_decimalDigits (Nat.lt_succ_self _), digitsValue]
      congr 1
      omega
  · rw [outputLines, List.getElem?_map, hk]; rfl

end Sys2Proof.Machine
end

section
/-! PROOFS. The decoder and the encoder (spec/30_encoding.md R57 to R62), and what becomes of the words in -99..-1
(R59 (d), spec/40_cycle.md R82). -/

namespace Sys2Proof.Machine
open Sys2Proof.Slice0

/-! ### Encoding, then decoding -/

theorem decode_encodeFields {op a : Nat} (hop : op ≤ 9) (ha : addressOk a = true) :
    decode (encodeFields op a) = .ok (decodeFields op a (op * 100 + a)) :=
  decode_word hop (of_decide_eq_true ha) (by simp only [encodeFields]; omega)

/-- A word above 999 has an opcode above 9 (R59 (b)). -/
theorem decode_of_ge {w : Int} (h : 1000 ≤ w) (h' : w ≤ 32767) : decode w = .ok (.unrecognised w) := by
  have hop : 10 ≤ opcodeField w.toNat := by simp only [opcodeField]; omega
  rw [decode_of_nonneg ⟨by omega, h'⟩ (by omega), decodeNonneg, decodeFields_of_ge hop, Int.toNat_of_nonneg (by omega)]

/-- Settles O21: a word with an opcode decodes by its two fields, a word without one by the range it lies in. -/
theorem decodeOfEncodeIsTheInstruction : Obligations.DecodeOfEncodeIsTheInstruction := by
  intro i hi
  cases i with
  | unrecognised w =>
    obtain ⟨hlo, hhi⟩ | ⟨hlo, hhi⟩ := of_decide_eq_true hi
    · exact decode_of_ge (w := w) hlo hhi
    · exact decode_of_le (w := w) ⟨hlo, by omega⟩ hhi
  | refusedNegative w =>
    obtain ⟨hlo, hhi⟩ := of_decide_eq_true hi
    exact decode_of_refused hlo hhi
  | _ a => exact decode_encodeFields (by decide) hi

/-! ### Decoding, then encoding -/

theorem encode_decodeFields {op : Nat} (hop : op ≤ 9) (a w : Nat) :
    encode (decodeFields op a w) = encodeFields op a := by
  interval_cases op <;> rfl

/-- Every cell value is the word of an instruction: of its opcode if it is in 0..999, else of its own row (R59). -/
theorem exists_encode_eq {w : Int} (hw : inCell w) : ∃ i : Instr, i.wellFormed = true ∧ encode i = w := by
  by_cases hop : 0 ≤ w ∧ w ≤ 999
  · refine ⟨decodeFields (w.toNat / 100) (w.toNat % 100) w.toNat, ?_, ?_⟩
    · exact decodeFields_wellFormed (by omega) (by omega) (.inl (by omega))
    · rw [encode_decodeFields (by omega), encodeFields, Nat.div_add_mod', Int.toNat_of_nonneg hop.1]
  · by_cases hneg : -99 ≤ w ∧ w ≤ -1
    · exact ⟨.refusedNegative w, decide_eq_true hneg, rfl⟩
    · exact ⟨.unrecognised w, decide_eq_true (by omega), rfl⟩

theorem inCell_of_decode {w : Int} {i : Instr} (h : decode w = .ok i) : inCell w := by
  by_contra hw
  simp [decode_of_not_inCell hw] at h

/-- Settles O22: a cell value is some instruction's word, and decoding a word gives its instruction back. -/
theorem everyCellValueDecodesToItsInstruction : Obligations.EveryCellValueDecodesToItsInstruction := by
  refine ⟨fun w hw => ?_, fun w i => inCell_of_decode⟩
  obtain ⟨i, hi, rfl⟩ := exists_encode_eq hw
  exact ⟨i, decodeOfEncodeIsTheInstruction i hi, hi, rfl⟩

/-! ### The refused negative word -/

theorem exec_unrecognised (w : Int) (s : State) :
    exec (.unrecognised w) s =
      .next { s with ir := .unknown, pc := s.pc + 1, runState := .halted, haltCause := .unknownOpcode } := rfl

theorem refusedNegativeEffect_of_fault {w : Int} {s : State} (h : s.cfg.decodeNeg = .fault) :
    refusedNegativeEffect w s = .error (.negativeWord w) := by
  simp only [refusedNegativeEffect, h]

theorem exec_refusedNegative_of_fault {w : Int} {s : State} (h : s.cfg.decodeNeg = .fault) :
    exec (.refusedNegative w) s = .next (faulted s .negativeWord) :=
  exec_of_effect_error (i := .refusedNegative w) (refusedNegativeEffect_of_fault h)

/-- In mode HALT a refused negative word is an unrecognised word (R59 (d)). -/
theorem exec_refusedNegative_of_halt {w : Int} {s : State} (h : s.cfg.decodeNeg = .halt) :
    exec (.refusedNegative w) s = exec (.unrecognised w) s :=
  exec_of_effect_ok (i := .refusedNegative w) (refusedNegativeEffect_of_halt h)

/-- Settles O23: the words with an opcode by their fields, the other ranges and the two modes by one rule each. -/
theorem decoderClassifiesEveryCellValue : Obligations.DecoderClassifiesEveryCellValue := by
  refine ⟨fun a ha => ?_, fun w => decode_of_ge, fun w hlo hhi => decode_of_le ⟨hlo, by omega⟩ hhi,
    fun w hlo hhi => ⟨decode_of_refused hlo hhi, fun s => exec_refusedNegative_of_fault,
      fun s => exec_refusedNegative_of_halt⟩⟩
  have word (op : Nat) (hop : op ≤ 9) {w : Int} (hw : w = 100 * (op : Int) + (a : Int)) := decode_word hop ha hw
  exact ⟨word 0 (by decide) (by omega), word 1 (by decide) rfl, word 2 (by decide) rfl, word 3 (by decide) rfl,
    word 4 (by decide) rfl, word 5 (by decide) rfl, word 6 (by decide) rfl, word 7 (by decide) rfl,
    word 8 (by decide) rfl, word 9 (by decide) rfl⟩

/-- Settles O16: the two modes, and the step of the unrecognised word. -/
theorem refusedNegativeWordFaultsOrHalts : Obligations.RefusedNegativeWordFaultsOrHalts := fun s w _ =>
  ⟨exec_refusedNegative_of_fault, fun h => (exec_refusedNegative_of_halt h).trans (exec_unrecognised w s)⟩

/-- Settles O24: the words are closed and the decoder evaluates. -/
theorem sampleWordsDecodeAsTheSpecSays : Obligations.SampleWordsDecodeAsTheSpecSays := by
  unfold Obligations.SampleWordsDecodeAsTheSpecSays
  decide

end Sys2Proof.Machine
end

section
/-! PROOFS. What the assembler produces (spec/30_encoding.md R65 to R78): the scanner yields operands and initializers
in their ranges, and pass 2 stores only cell values, and none of them in cell 0. -/

namespace Sys2Proof.Machine

/-! ### What a computation yields -/

/-- The computation fails, or its result has the property. -/
def Yields {ε α : Type} (P : α → Prop) (x : Except ε α) : Prop := ∀ v, x = .ok v → P v

section
variable {ε α β : Type} {P : α → Prop} {Q : β → Prop}

theorem yields_ok {v : α} (hv : P v) : Yields P (.ok v : Except ε α) := fun _ h => Except.ok.inj h ▸ hv

theorem yields_error (e : ε) : Yields P (.error e : Except ε α) := fun _ h => by cases h

theorem Yields.map {x : Except ε α} {f : α → β} (hx : Yields P x) (hf : ∀ v, P v → Q (f v)) : Yields Q (x.map f) := by
  cases x with
  | ok v => exact yields_ok (hf v (hx v rfl))
  | error e => exact yields_error e

end

/-! ### The scanner -/

/-- A literal operand is in 0..99 (R77). -/
def Operand.InRange : Operand → Prop
  | .literal a => a ≤ 99
  | .name _ => True

/-- An initializer is a cell value, and an instruction has a known opcode and an operand in range (R66, R77). -/
def Item.InRange : Item → Prop
  | .label _ => True
  | .decl _ init => ∀ v ∈ init, inCell v
  | .instr op o => op ≤ 9 ∧ o.InRange

theorem parseOperand_inRange (t : Token) : Yields Operand.InRange (parseOperand t) := by
  unfold parseOperand
  split
  · split
    · exact yields_error _
    next v _ =>
      split
      next hv => exact yields_ok (show v.toNat ≤ 99 by omega)
      next => exact yields_error _
  · exact yields_ok trivial

theorem parseInit_inCell (t : Token) : Yields inCell (parseInit t) := by
  unfold parseInit
  split
  · exact yields_error _
  · split
    next hv => exact yields_ok hv
    next => exact yields_error _

theorem mnemonicOpcode_le {t : Token} {op : Nat} (h : mnemonicOpcode t = some op) : op ≤ 9 := by
  have hall : (mnemonicOpcode t).all (· ≤ 9) = true := by simp [mnemonicOpcode, apply_ite (Option.all _)]
  simpa [h] using hall

theorem scanDeclaration_inRange (rest : List Token) : Yields Item.InRange (scanDeclaration rest) := by
  unfold scanDeclaration
  split
  · split
    · exact yields_error _
    · exact yields_ok (by simp [Item.InRange])
  next n e v _ =>
    split
    · exact (parseInit_inCell v).map fun x hx => by simpa [Item.InRange] using hx
    · exact yields_error _
  · exact yields_error _

theorem scanStatement_inRange (ac : AsmConfig) (t : Token) (rest : List Token) :
    Yields Item.InRange (scanStatement ac t rest) := by
  unfold scanStatement
  split
  · exact scanDeclaration_inRange rest
  · split
    · exact yields_error _
    next op hop =>
      split
      · split
        · exact yields_ok ⟨by decide, Nat.zero_le 99⟩
        · exact yields_error _
      · split
        · exact yields_error _
        next x => exact (parseOperand_inRange x).map fun o ho => ⟨mnemonicOpcode_le hop, ho⟩
        · exact yields_error _

theorem scanTokens_inRange (ac : AsmConfig) (ts : List Token) :
    Yields (∀ i ∈ ·, Item.InRange i) (scanTokens ac ts) := by
  induction ts with
  | nil => exact yields_ok (by simp)
  | cons t rest ih =>
    rw [scanTokens]
    split
    · exact yields_error _
    · split
      · split
        · exact yields_error _
        · exact ih.map fun is his => List.forall_mem_cons.2 ⟨trivial, his⟩
      · exact (scanStatement_inRange ac t rest).map fun i hi => List.forall_mem_singleton.2 hi

theorem scanLines_inRange (ac : AsmConfig) (ls : List (List Char)) :
    Yields (∀ i ∈ ·, Item.InRange i) (scanLines ac ls) := by
  induction ls with
  | nil => exact yields_ok (by simp)
  | cons l ls ih =>
    rw [scanLines]
    split
    · exact ih
    · split
      · exact yields_error _
      next is his =>
        exact ih.map fun js hjs => List.forall_mem_append.2 ⟨scanTokens_inRange ac _ is his, hjs⟩

/-! ### The symbol table -/

/-- The variables fit in the cells 1..99. -/
def Symbols.Fits (y : Symbols) : Prop := y.vars.length ≤ 99

/-- A variable's address is one of 1..99, never cell 0 (R73). -/
theorem addVariable_fits (ac : AsmConfig) {y : Symbols} (hy : y.Fits) (t : Token) :
    Yields (fun r => r.1.Fits ∧ 1 ≤ r.2 ∧ r.2 ≤ 99) (addVariable ac y t) := by
  unfold addVariable
  split
  next n hn =>
    obtain ⟨hlt, -⟩ := List.idxOf?_eq_some_iff.1 hn
    exact yields_ok ⟨hy, by simp only [variableAddress, Symbols.Fits] at *; omega⟩
  next =>
    split
    next hcap =>
      obtain ⟨-, hle⟩ := hcap
      refine yields_ok ⟨?_, ?_⟩
      · simp only [variableAddress, Symbols.Fits, List.length_append, List.length_singleton] at *; omega
      · exact ⟨Nat.le_add_right 1 _, hle⟩
    next => exact yields_error _

theorem passOne_fits (ac : AsmConfig) (is : List Item) (n : Nat) {y : Symbols} (hy : y.Fits) :
    Yields Symbols.Fits (passOne ac is n y) := by
  induction is generalizing n y with
  | nil => exact yields_ok hy
  | cons i is ih =>
    cases i <;> rw [passOne]
    case label t =>
      split
      · exact yields_error _
      · exact ih _ hy
    case decl t init =>
      split
      · exact yields_error _
      next y' a ha => exact ih _ (addVariable_fits ac hy t _ ha).1
    case instr op o =>
      split
      · exact ih _ hy
      · exact yields_error _

/-- An operand's address is one of the 100 cells (R67, R72). -/
theorem resolve_fits (ac : AsmConfig) {y : Symbols} (hy : y.Fits) {o : Operand} (ho : o.InRange) :
    Yields (fun r => r.1.Fits ∧ r.2 ≤ 99) (resolve ac y o) := by
  cases o <;> rw [resolve]
  case literal a => exact yields_ok ⟨hy, ho⟩
  case name t =>
    split
    · split
      next hle => exact yields_ok ⟨hy, hle⟩
      next => exact yields_error _
    · exact fun r hr => (addVariable_fits ac hy t r hr).imp_right And.right

/-! ### The image -/

/-- What the host may load, with cell 0 left to the seed (R78, R126). -/
def Loadable (image : List Int) : Prop := image.length = 100 ∧ (∀ v ∈ image, inCell v) ∧ image[0]? = some 0

theorem emptyImage_loadable : Loadable emptyImage := by
  refine ⟨rfl, fun v hv => ?_, rfl⟩
  rw [List.eq_of_mem_replicate hv]
  decide

/-- Storing a cell value in a cell other than cell 0. -/
theorem Loadable.set {image : List Int} (h : Loadable image) {a : Nat} {v : Int} (ha : 1 ≤ a) (hv : inCell v) :
    Loadable (image.set a v) := by
  obtain ⟨hlen, hcells, hzero⟩ := h
  refine ⟨by rw [List.length_set, hlen], fun x hx => ?_, by rw [List.getElem?_set_ne (by omega), hzero]⟩
  obtain hx | rfl := List.mem_or_eq_of_mem_set hx
  · exact hcells x hx
  · exact hv

/-- Pass 2 keeps the image loadable, from any counter past cell 0 (R71). -/
theorem passTwo_loadable (ac : AsmConfig) {is : List Item} (his : ∀ i ∈ is, i.InRange) {n : Nat} (hn : 1 ≤ n)
    {y : Symbols} (hy : y.Fits) {image : List Int} (himage : Loadable image) :
    Yields Loadable (passTwo ac is n y image) := by
  induction is generalizing n y image with
  | nil => exact yields_ok himage
  | cons i is ih =>
    obtain ⟨hi, hrest⟩ := List.forall_mem_cons.1 his
    cases i <;> rw [passTwo]
    case label t => exact ih hrest hn hy himage
    case decl t init =>
      split
      · exact yields_error _
      next y' a ha =>
        obtain ⟨hy', hpos, -⟩ := addVariable_fits ac hy t _ ha
        cases init with
        | none => exact ih hrest hn hy' himage
        | some v => exact ih hrest hn hy' (himage.set hpos (hi v rfl))
    case instr op o =>
      obtain ⟨hop, ho⟩ := hi
      split
      · exact yields_error _
      next y' a ha =>
        obtain ⟨hy', hle⟩ := resolve_fits ac hy ho _ ha
        have hword := Laws.EncodesToACellValue.encodeFields_inCell hop (decide_eq_true hle)
        split
        · exact ih hrest (by omega) hy' (himage.set hn hword)
        · exact yields_error _

/-- Settles O51: the scanner's items are in range, pass 1's table fits, and pass 2 starts from the empty image. -/
theorem assembledImageIsLoadable : Obligations.AssembledImageIsLoadable := by
  intro ac text
  show Yields Loadable (assemble ac text)
  unfold assemble
  split
  · exact yields_error _
  next items hitems =>
    split
    · exact yields_error _
    next y hy =>
      exact passTwo_loadable ac (scanLines_inRange ac _ items hitems) (by decide)
        (passOne_fits ac items 10 (y := {}) (Nat.zero_le 99) y hy) emptyImage_loadable

end Sys2Proof.Machine
end

section
/-! PROOFS. The step: fetch, decoding and meaning; the pc update and the halting check of a step that completes
(spec/40_cycle.md R80 to R87). -/

namespace Sys2Proof.Machine
open Sys2Proof.Slice0

/-! ### One instruction per step -/

/-- Settles O25: on a cell the fetch raises nothing, and the fetched word decodes. -/
theorem stepRunsTheFetchedInstruction : Obligations.StepRunsTheFetchedInstruction := fun _ _ hs hd =>
  step_of_decode hs.1 (memRead_of_le hs.2) hd

theorem step_of_halted {s : State} (h : s.runState = .halted) : step s = .fault .runHalted := by
  simp only [step, h]

theorem step_of_faulted {s : State} (h : s.runState = .faulted) : step s = .fault .runFaulted := by
  simp only [step, h]

/-- Settles O26: under the invariant pc is on a cell and the cell holds a cell value, which decodes; every instruction
ends in a next state. -/
theorem runningEngineAlwaysHasAStep : Obligations.RunningEngineAlwaysHasAStep := by
  refine ⟨fun s hs hr => ?_, fun s => step_of_halted, fun s => step_of_faulted⟩
  have hready : Ready s := ⟨hr, hs.pc_lt (by simp [hr])⟩
  obtain ⟨i, hd, hi, -⟩ := everyCellValueDecodesToItsInstruction.1 _ (Memory.read_inCell hs.mem_wf s.pc)
  have hstep := stepRunsTheFetchedInstruction s i hready hd
  obtain ⟨t, ht⟩ := exec_next i s
  exact ⟨i, t, hd, hi, hstep, hstep.trans ht⟩

/-! ### The pc update and the halting check -/

theorem nextPc_eq_getD (e : Effected) : nextPc e = e.target.getD (e.st.pc + 1) := by
  cases h : e.target <;> simp [nextPc, h]

/-- A completing effect sets the branch target of its instruction: TEST where it read a negative accumulator, JUMP
always (R99, R100). -/
theorem Completes.target_eq {s : State} {i : Instr} {e : Effected} (h : Completes s i e) :
    e.target = branchTarget i s := by
  cases h with
  | test hacc => simp [branchTarget, hacc, isNegative]
  | _ => rfl

/-- A completing effect requests the halt of its instruction (R101, R102). -/
theorem Completes.halt_eq {s : State} {i : Instr} {e : Effected} (h : Completes s i e) : e.halt = haltRequest i := by
  cases h <;> rfl

/-- Settles O30: the effect of a completing instruction has its branch target and its halt request, and the end of the
step does with them what R84 and R85 say. -/
theorem completedStepUpdatesPcAndChecksForTheEnd : Obligations.CompletedStepUpdatesPcAndChecksForTheEnd := by
  intro i s t hi ⟨hrun, hpc⟩ h ht
  obtain ⟨e, he, rfl⟩ | ⟨r, rfl⟩ := exec_completes_or_faults h
  · have hle : nextPc e ≤ 100 := by
      have := he.nextPc_le hi
      omega
    rw [completeStep_pc, ← he.target_eq, ← he.halt_eq, ← he.pc_eq, ← hrun, ← he.runState_eq, ← he.haltCause_eq]
    refine ⟨nextPc_eq_getD e, hle, completeStep_status_of_halt, fun hk hend => ?_, fun hk hne => ?_⟩
    · simp [completeStep_status_of_none hk, hend]
    · have hlt : ¬ 100 ≤ nextPc e := by omega
      simp [completeStep_status_of_none hk, hlt]
  · exact absurd rfl ht

end Sys2Proof.Machine
end

section
/-! PROOFS. Control transfer: the steps of JUMP and HALT, and the JUMP to its own cell (spec/43_control.md R100, R101,
spec/40_cycle.md R88). -/

namespace Sys2Proof.Machine
open Sys2Proof.Slice0

/-! ### The steps of JUMP and HALT -/

/-- A step at a word of a known opcode is the meaning of the instruction with its two fields (R58, R61). -/
theorem step_of_word {s : State} {op a : Nat} (hs : Ready s) (hop : op ≤ 9) (ha : a ≤ 99)
    (hw : s.mem.read s.pc = 100 * (op : Int) + (a : Int)) : step s = exec (decodeFields op a (op * 100 + a)) s :=
  stepRunsTheFetchedInstruction s _ hs (decode_word hop ha hw)

/-- The state a JUMP to `a` leaves: the return word in cell 99, and pc at `a` (R100). -/
def State.afterJump (s : State) (a : Nat) : State :=
  (s.setMem (s.mem.write 99 (returnWord s.pc))).retire (.opcode 8) a

theorem State.afterJump_read_same {s : State} (hwf : s.mem.wf) (a : Nat) :
    (s.afterJump a).mem.read 99 = returnWord s.pc :=
  Memory.read_write_same hwf 99 _

theorem State.afterJump_read_other (s : State) (a : Nat) {b : Nat} (h : b ≠ 99) :
    (s.afterJump a).mem.read b = s.mem.read b :=
  Memory.read_write_other _ h

/-- The step of a JUMP: it goes on at a cell, so the halting check does nothing (R85, R100). -/
theorem step_of_jump {s : State} {a : Nat} (hs : Ready s) (ha : a ≤ 99) (hw : s.mem.read s.pc = 800 + (a : Int)) :
    step s = .next (s.afterJump a) := by
  rw [step_of_word (op := 8) hs (by decide) ha hw, ← haltingCheck_none_of_lt (s := s.afterJump a) ha]
  exact exec_of_effect_ok (i := .jump a) (jumpEffect_of_pc_le hs.2)

/-- The step of a HALT (R101). -/
theorem step_of_halt {s : State} {a : Nat} (hs : Ready s) (ha : a ≤ 99) (hw : s.mem.read s.pc = 900 + (a : Int)) :
    step s = .next ((s.retire (.opcode 9) (s.pc + 1)).enterHalted .haltInstr) :=
  step_of_word (op := 9) hs (by decide) ha hw

/-! ### The JUMP to its own cell -/

/-- A run never ends if some property of its first state holds only of RUNNING states and has a step that keeps it. -/
theorem neverEnds_of_invariant {P : State → Prop}
    (hP : ∀ t, P t → t.runState = .running ∧ ∃ u, step t = .next u ∧ P u) {s : State} (hs : P s) : NeverEnds s := by
  have reached : ∀ t, Steps s t → P t := by
    intro t hrun
    induction hrun with
    | refl => exact hs
    | tail t u _ hstep ih =>
      obtain ⟨-, u', hstep', hu'⟩ := hP t ih
      rw [hstep, Host.Outcome.next.injEq] at hstep'
      rwa [hstep']
  intro t hrun
  obtain ⟨hr, u, hstep, -⟩ := hP t (reached t hrun)
  exact ⟨hr, u, hstep⟩

/-- The engine is RUNNING at a cell below cell 99 that holds the JUMP to itself. -/
def AtSelfJump (s : State) : Prop := Ready s ∧ s.pc ≤ 98 ∧ s.mem.read s.pc = 800 + (s.pc : Int)

/-- The JUMP to itself writes only cell 99, so it is fetched again (R88). -/
theorem AtSelfJump.exists_step {s : State} (h : AtSelfJump s) : ∃ t, step s = .next t ∧ AtSelfJump t := by
  obtain ⟨hs, hpc, hw⟩ := h
  have hother : s.pc ≠ 99 := by omega
  exact ⟨_, step_of_jump hs hs.2 hw, hs, hpc, (s.afterJump_read_other s.pc hother).trans hw⟩

/-- Settles O44: below cell 99 the JUMP keeps `AtSelfJump`; at cell 99 it leaves its return word 900, which is HALT. -/
theorem jumpToItselfNeverEndsBelowCell99 : Obligations.JumpToItselfNeverEndsBelowCell99 := by
  refine ⟨fun s hs hpc hw => ?_, fun s hs hwf hpc hw => ?_⟩
  · exact neverEnds_of_invariant (P := AtSelfJump) (fun t ht => ⟨ht.1.1, ht.exists_step⟩) ⟨hs, hpc, hw⟩
  · have hjump := step_of_jump (a := 99) hs le_rfl (by rw [hpc, hw]; rfl)
    have hword : (s.afterJump 99).mem.read 99 = 900 := by
      rw [State.afterJump_read_same hwf, hpc]
      rfl
    have hhalt := step_of_halt (s := s.afterJump 99) (a := 0) ⟨hs.1, le_rfl⟩ (by decide) hword
    exact ⟨_, ⟨.tail _ _ _ (.tail _ _ _ (.refl s) hjump) hhalt, by simp⟩, rfl, rfl, rfl⟩

end Sys2Proof.Machine
end

section
/-! PROOFS. IN and OUT (spec/41_io.md R91, R92), and the end of a step that sets no branch target and requests no halt
(spec/40_cycle.md R84, R85). -/

namespace Sys2Proof.Machine
open Sys2Proof.Slice0

/-! ### A step that falls through -/

/-- The step goes on at pc + 1, and past cell 99 the halting check stops it (R84, R85). -/
theorem Completes.fallsThrough {s st : State} {i : Instr} (h : Completes s i { st }) (hs : Ready s) (op : Ir) :
    FallsThrough s (completeStep op { st }) := by
  obtain ⟨hrun, hpc⟩ := hs
  have hnext : nextPc { st } = s.pc + 1 := congrArg (· + 1) h.pc_eq
  obtain ⟨hstate, hcause⟩ := completeStep_status_of_none (op := op) (e := { st }) rfl
  rw [hnext, h.runState_eq, hrun] at hstate
  rw [hnext, h.haltCause_eq] at hcause
  refine ⟨(completeStep_pc op _).trans hnext, fun hlast => ?_, fun hother => ?_⟩
  · simp [hstate, hcause, hlast]
  · have hgoes : ¬ 100 ≤ s.pc + 1 := by omega
    simp only [hstate, hcause, if_neg hgoes, and_self]

theorem Completes.keepsTheRest {s : State} {i : Instr} {e : Effected} (h : Completes s i e) (op : Ir) :
    KeepsTheRest s (completeStep op e) :=
  ⟨(completeStep_cfg op e).trans h.cfg_eq, (completeStep_deck op e).trans h.deck_eq,
    (completeStep_faultCode op e).trans h.faultCode_eq⟩

/-! ### IN -/

theorem inputEffect_of_fault {a : Nat} {s : State} (h : s.deck[s.cursor]? = none) (hm : s.cfg.deckExhausted = .fault) :
    inputEffect a s = .error (.deckExhausted s.cursor) := by
  simp only [inputEffect, bind, Except.bind, deckRead_of_none_fault h hm]

/-- The step of an IN that got the value `v`, from the deck or past its end in mode ZERO. -/
theorem exec_input_of_effect_ok {a : Nat} {s : State} {v : Int} (hs : Ready s) (hwf : s.mem.wf)
    (h : inputEffect a s = .ok { st := s.advanceCursor.setMem (s.mem.write a v) }) :
    ∃ t, exec (.input a) s = .next t ∧ t.mem.read a = v ∧ (∀ b, b ≠ a → t.mem.read b = s.mem.read b) ∧
      t.cursor = s.cursor + 1 ∧ t.ir = .opcode 0 ∧ FallsThrough s t ∧ KeepsTheRest s t ∧ t.acc = s.acc ∧
      t.out = s.out := by
  have hc := effectOf_eq_ok (i := .input a) h
  refine ⟨_, exec_of_effect_ok (i := .input a) h, ?_, fun b hb => ?_, by simp, completeStep_ir _ _,
    hc.fallsThrough hs _, hc.keepsTheRest _, by simp, by simp⟩
  · simpa using Memory.read_write_same hwf a v
  · simpa using Memory.read_write_other v hb

/-- Settles O1: the DeckRead takes `v` and the MemWrite accepts it. -/
theorem inputStoresTheNextDeckValue : Obligations.InputStoresTheNextDeckValue :=
  fun _ _ _ hs hwf ha hdeck hv => exec_input_of_effect_ok hs hwf (inputEffect_of_some hdeck ha hv)

/-- Settles O2: past the deck the mode decides between the fault and an IN of the value 0. -/
theorem inputPastTheDeckFaultsOrReadsZero : Obligations.InputPastTheDeckFaultsOrReadsZero := by
  intro s a hs hwf ha hlen
  have hnone : s.deck[s.cursor]? = none := List.getElem?_eq_none hlen
  exact ⟨fun hfault => exec_of_effect_error (i := .input a) (inputEffect_of_fault hnone hfault),
    fun hzero => exec_input_of_effect_ok hs hwf (inputEffect_of_zero hnone hzero ha)⟩

/-! ### OUT -/

/-- Settles O4: the MemRead is of a cell, and OutEmit changes the output only. -/
theorem outputEmitsTheCell : Obligations.OutputEmitsTheCell := by
  intro s a hs ha
  have heffect : effectOf (.output a) s = .ok { st := s.outEmit (s.mem.read a) } := outputEffect_of_le ha
  have hc := effectOf_eq_ok heffect
  exact ⟨_, exec_of_effect_ok heffect, by simp, completeStep_ir _ _, hc.fallsThrough hs _, hc.keepsTheRest _,
    by simp, by simp, by simp⟩

end Sys2Proof.Machine
end

section
/-! PROOFS. LOAD, ADD, SUB, SHIFT and STORE (spec/42_accumulator.md R93 to R98): the closed form of SHIFT's
multiplications and divisions, then the meaning of each instruction. -/

namespace Sys2Proof.Machine
open Sys2Proof.Slice0

/-! ### LOAD, ADD and SUB -/

/-- The step of an instruction whose effect only puts `v` into the accumulator. -/
theorem exec_of_effect_setAcc {i : Instr} {s : State} {v : Int} (hs : Ready s)
    (h : effectOf i s = .ok { st := s.setAcc v }) :
    ∃ t, exec i s = .next t ∧ t.acc = some v ∧ t.ir = irAfter i ∧ FallsThrough s t ∧ KeepsTheRest s t ∧
      t.mem = s.mem ∧ t.cursor = s.cursor ∧ t.out = s.out := by
  have hc := effectOf_eq_ok h
  exact ⟨_, exec_of_effect_ok h, by simp, completeStep_ir _ _, hc.fallsThrough hs _, hc.keepsTheRest _,
    by simp, by simp, by simp⟩

/-- Settles O5: LOAD reads a cell and never looks at the accumulator. -/
theorem loadCopiesTheCell : Obligations.LoadCopiesTheCell := fun _ a hs ha =>
  exec_of_effect_setAcc (i := .load a) hs (loadEffect_of_le ha)

/-- Settles O6: the range check accepts the exact sum and the exact difference. -/
theorem addAndSubtractAreExact : Obligations.AddAndSubtractAreExact := fun _ a _ hs ha hacc =>
  ⟨fun hsum => exec_of_effect_setAcc (i := .add a) hs (addEffect_of_inAcc hacc ha hsum),
    fun hdiff => exec_of_effect_setAcc (i := .sub a) hs (subEffect_of_inAcc hacc ha hdiff)⟩

theorem addEffect_of_not_inAcc {a : Nat} {s : State} {x : Int} (hx : s.acc = some x) (ha : a ≤ 99)
    (hr : ¬ inAcc s.cfg (x + s.mem.read a)) : addEffect a s = .error (.accOverflow (x + s.mem.read a)) := by
  simp only [addEffect, bind, Except.bind, accRead_of_some hx, memRead_of_le ha, checkAcc_of_not_inAcc hr]

theorem subEffect_of_not_inAcc {a : Nat} {s : State} {x : Int} (hx : s.acc = some x) (ha : a ≤ 99)
    (hr : ¬ inAcc s.cfg (x - s.mem.read a)) : subEffect a s = .error (.accOverflow (x - s.mem.read a)) := by
  simp only [subEffect, bind, Except.bind, accRead_of_some hx, memRead_of_le ha, checkAcc_of_not_inAcc hr]

/-- Settles O7: the range check refuses the exact result, so the accumulator is never written. -/
theorem addAndSubtractOverflowFaults : Obligations.AddAndSubtractOverflowFaults := fun _ a _ _ ha hacc =>
  ⟨fun hsum => exec_of_effect_error (i := .add a) (addEffect_of_not_inAcc hacc ha hsum),
    fun hdiff => exec_of_effect_error (i := .sub a) (subEffect_of_not_inAcc hacc ha hdiff)⟩

/-! ### STORE -/

/-- Settles O11: the MemWrite accepts the accumulator, and the laws of memory give the cells. -/
theorem storeWritesTheAccumulator : Obligations.StoreWritesTheAccumulator := by
  intro s a x hs hwf ha hacc hx
  have heffect : effectOf (.store a) s = .ok { st := s.setMem (s.mem.write a x) } := storeEffect_of_inCell hacc ha hx
  have hc := effectOf_eq_ok heffect
  refine ⟨_, exec_of_effect_ok heffect, ?_, fun b hb => ?_, completeStep_ir _ _, hc.fallsThrough hs _,
    hc.keepsTheRest _, by simp, by simp, by simp⟩
  · simpa using Memory.read_write_same hwf a x
  · simpa using Memory.read_write_other x hb

/-! ### The multiplications of SHIFT -/

/-- Multiplying by a power of ten moves away from 0, so a product in range has all its predecessors in range. -/
theorem inAcc_of_inAcc_mul_pow {c : Config} {x : Int} {n : Nat} (h : inAcc c (x * 10 ^ n)) : inAcc c x := by
  have hpow : (1 : Int) ≤ 10 ^ n := one_le_pow₀ (by decide)
  refine inAcc_of_between h ?_
  obtain hx | hx := le_total 0 x
  · exact .inl ⟨hx, le_mul_of_one_le_right hx hpow⟩
  · exact .inr ⟨mul_le_of_one_le_right hx hpow, hx⟩

theorem timesTen_of_inAcc {c : Config} {n : Nat} {x : Int} (h : inAcc c (x * 10 ^ n)) :
    timesTen c n x = .ok (x * 10 ^ n) := by
  induction n generalizing x with
  | zero => simp [timesTen]
  | succ n ih =>
    rw [pow_succ', ← mul_assoc] at h ⊢
    rw [timesTen, checkAcc_of_inAcc (inAcc_of_inAcc_mul_pow h)]
    exact ih h

/-- From a value in range, some product on the way is the first out of range, and it is raised (R93). -/
theorem timesTen_of_not_inAcc {c : Config} {n : Nat} {x : Int} (hx : inAcc c x) (h : ¬ inAcc c (x * 10 ^ n)) :
    ∃ v, timesTen c n x = .error (.accOverflow v) := by
  induction n generalizing x with
  | zero => exact absurd hx (by simpa using h)
  | succ n ih =>
    rw [pow_succ', ← mul_assoc] at h
    by_cases hstep : inAcc c (x * 10)
    · rw [timesTen, checkAcc_of_inAcc hstep]
      exact ih hstep h
    · exact ⟨_, by rw [timesTen, checkAcc_of_not_inAcc hstep]⟩

/-! ### The divisions of SHIFT -/

/-- Where both roundings agree, and everywhere in mode FLOOR, a division by 10 is the floor division. -/
theorem divTen_eq_ediv {c : Config} {x : Int} (h : c.shiftDiv = .floor ∨ 0 ≤ x ∨ 10 ∣ x) :
    divTen c x = .ok (x / 10) := by
  by_cases hx : x < 0 ∧ x % 10 ≠ 0
  · have hfloor : c.shiftDiv = .floor := h.resolve_right (by omega)
    simp only [divTen, if_pos hx, hfloor, floor10, Int.fdiv_eq_ediv_of_nonneg x (show (0 : Int) ≤ 10 by decide)]
  · rw [divTen, if_neg hx]

theorem divTens_eq_ediv {c : Config} {n : Nat} {x : Int} (h : c.shiftDiv = .floor ∨ 0 ≤ x ∨ 10 ^ n ∣ x) :
    divTens c n x = .ok (x / 10 ^ n) := by
  induction n generalizing x with
  | zero => simp [divTens]
  | succ n ih =>
    rw [pow_succ'] at h ⊢
    have hstep : divTen c x = .ok (x / 10) := divTen_eq_ediv (h.imp_right (Or.imp_right dvd_of_mul_right_dvd))
    have hrest : c.shiftDiv = .floor ∨ 0 ≤ x / 10 ∨ 10 ^ n ∣ x / 10 :=
      h.imp_right (Or.imp (fun hx => by omega) Int.dvd_ediv_of_mul_dvd)
    rw [divTens, hstep, ← Int.ediv_ediv_of_nonneg (by decide)]
    exact ih hrest

/-- Dividing toward zero twice is dividing toward zero by the product. -/
theorem tdiv_tdiv_of_nonneg (x : Int) {y z : Int} (hy : 0 ≤ y) : (x.tdiv y).tdiv z = x.tdiv (y * z) := by
  have hnat (m : Nat) : ((m : Int).tdiv y).tdiv z = (m : Int).tdiv (y * z) := by
    have hm : (0 : Int) ≤ m := Int.natCast_nonneg m
    rw [Int.tdiv_eq_ediv_of_nonneg hm, Int.tdiv_eq_ediv_of_nonneg hm,
      Int.tdiv_eq_ediv_of_nonneg (Int.ediv_nonneg hm hy), Int.ediv_ediv_of_nonneg hy]
  obtain ⟨m, rfl | rfl⟩ := x.eq_nat_or_neg
  · exact hnat m
  · simp only [Int.neg_tdiv, hnat]

/-- In mode TRUNC a division by 10 goes toward zero, whatever the value. -/
theorem divTen_eq_tdiv {c : Config} (h : c.shiftDiv = .trunc) (x : Int) : divTen c x = .ok (x.tdiv 10) := by
  by_cases hx : x < 0 ∧ x % 10 ≠ 0
  · simp only [divTen, if_pos hx, h, trunc10]
  · have hagree : x.tdiv 10 = x / 10 := by
      obtain hpos | hdvd : 0 ≤ x ∨ 10 ∣ x := by omega
      · exact Int.tdiv_eq_ediv_of_nonneg hpos
      · exact Int.tdiv_eq_ediv_of_dvd hdvd
    rw [divTen, if_neg hx, hagree]

theorem divTens_eq_tdiv {c : Config} (h : c.shiftDiv = .trunc) (n : Nat) (x : Int) :
    divTens c n x = .ok (x.tdiv (10 ^ n)) := by
  induction n generalizing x with
  | zero => simp [divTens]
  | succ n ih =>
    rw [divTens, divTen_eq_tdiv h, pow_succ', ← tdiv_tdiv_of_nonneg x (by decide)]
    exact ih _

/-- In mode UNDECIDED some division meets a negative non-multiple of 10, and that value is raised. -/
theorem divTens_of_not_dvd {c : Config} {n : Nat} {x : Int} (hm : c.shiftDiv = .undecided) (hx : x < 0)
    (h : ¬ (10 : Int) ^ n ∣ x) : ∃ v, divTens c n x = .error (.shiftRounding v) := by
  induction n generalizing x with
  | zero => exact absurd (one_dvd x) h
  | succ n ih =>
    by_cases hdvd : 10 ∣ x
    · have hrest : ¬ (10 : Int) ^ n ∣ x / 10 := by rwa [Int.dvd_ediv_iff_mul_dvd hdvd, ← pow_succ']
      rw [divTens, divTen_eq_ediv (.inr (.inr hdvd))]
      exact ih (by omega) hrest
    · exact ⟨x, by simp only [divTens, divTen, if_pos (show x < 0 ∧ x % 10 ≠ 0 by omega), hm]⟩

/-! ### SHIFT -/

theorem shiftCode_of_not_legal {s : State} {a : Nat} (ha : a ≤ 99) (h : ¬ (0 ≤ s.mem.read a ∧ s.mem.read a ≤ 99)) :
    shiftCode s a = .error (.shiftCodeRange a (s.mem.read a)) := by
  simp only [shiftCode, memRead_of_le ha, if_neg h]

/-- With a legal code and a written accumulator, SHIFT multiplies `l` times and divides `r` times (R96). -/
theorem shiftEffect_of_digits {s : State} {a l r : Nat} {x : Int} (ha : a ≤ 99) (hl : l ≤ 9) (hr : r ≤ 9)
    (hcode : s.mem.read a = 10 * (l : Int) + (r : Int)) (hx : s.acc = some x) :
    shiftEffect a s =
      (timesTen s.cfg l x >>= divTens s.cfg r) >>= fun y => .ok { st := s.setAcc y } := by
  have hlegal : shiftCode s a = .ok (s.mem.read a) := by
    rw [shiftCode, memRead_of_le ha]
    exact if_pos (by omega)
  have hleft : shiftLeftCount (s.mem.read a) = l := by rw [shiftLeftCount]; omega
  have hright : shiftRightCount (s.mem.read a) = r := by rw [shiftRightCount]; omega
  have hvalue : shiftValue s.cfg (s.mem.read a) x = timesTen s.cfg l x >>= divTens s.cfg r := by
    rw [shiftValue, hleft, hright]; cases timesTen s.cfg l x <;> rfl
  rw [shiftEffect, hlegal, accRead_of_some hx, ← hvalue]
  rfl

/-- Once the product is in range, only the divisions can still raise. -/
theorem shiftEffect_of_inAcc {s : State} {a l r : Nat} {x : Int} (ha : a ≤ 99) (hl : l ≤ 9) (hr : r ≤ 9)
    (hcode : s.mem.read a = 10 * (l : Int) + (r : Int)) (hx : s.acc = some x) (hprod : inAcc s.cfg (x * 10 ^ l)) :
    shiftEffect a s = divTens s.cfg r (x * 10 ^ l) >>= fun y => .ok { st := s.setAcc y } := by
  rw [shiftEffect_of_digits ha hl hr hcode hx, timesTen_of_inAcc hprod]
  rfl

/-- Settles O9: the product is in range, and the divisions are one division by the power, floor or truncating. -/
theorem shiftMultipliesThenDivides : Obligations.ShiftMultipliesThenDivides := by
  intro s a l r x y hs ha hl hr hcode hacc hprod hy
  have hdiv : divTens s.cfg r (x * 10 ^ l) = .ok y := by
    obtain ⟨hagree, rfl⟩ | ⟨htrunc, rfl⟩ | ⟨hfloor, rfl⟩ := hy
    · exact divTens_eq_ediv (.inr hagree)
    · exact divTens_eq_tdiv htrunc r _
    · rw [Int.fdiv_eq_ediv_of_nonneg _ (by positivity)]
      exact divTens_eq_ediv (.inl hfloor)
  have heffect : effectOf (.shift a) s = .ok { st := s.setAcc y } := by
    rw [effectOf, shiftEffect_of_inAcc ha hl hr hcode hacc hprod, hdiv]; rfl
  exact exec_of_effect_setAcc hs heffect

/-- Settles O10: the code is checked first, then every product, then every division. -/
theorem shiftFaultsInOrder : Obligations.ShiftFaultsInOrder := by
  intro s a _ ha
  refine ⟨fun hcode => ?_, fun l r x hl hr hcode hacc hx => ⟨fun hprod => ?_, fun hprod hneg hndvd hmode => ?_⟩⟩
  · have heffect : effectOf (.shift a) s = .error (.shiftCodeRange a (s.mem.read a)) := by
      rw [effectOf, shiftEffect, shiftCode_of_not_legal ha hcode]; rfl
    exact exec_of_effect_error heffect
  · obtain ⟨v, hv⟩ := timesTen_of_not_inAcc hx hprod
    have heffect : effectOf (.shift a) s = .error (.accOverflow v) := by
      rw [effectOf, shiftEffect_of_digits ha hl hr hcode hacc, hv]; rfl
    exact exec_of_effect_error heffect
  · obtain ⟨v, hv⟩ := divTens_of_not_dvd hmode (mul_neg_of_neg_of_pos hneg (by positivity)) hndvd
    have heffect : effectOf (.shift a) s = .error (.shiftRounding v) := by
      rw [effectOf, shiftEffect_of_inAcc ha hl hr hcode hacc hprod, hv]; rfl
    exact exec_of_effect_error heffect

end Sys2Proof.Machine
end

section
/-! PROOFS. TEST, JUMP, HALT and the unrecognised word (spec/43_control.md R99 to R102), and the two ways through the
return word in cell 99 (R103, C4). -/

namespace Sys2Proof.Machine
open Sys2Proof.Slice0

/-! ### A step that branches -/

/-- A branch goes to a cell, so the halting check does nothing (R84, R85). -/
theorem completeStep_of_target (op : Ir) (st : State) {a : Nat} (ha : a ≤ 99) :
    completeStep op { st, target := some a } = st.retire op a :=
  haltingCheck_none_of_lt ha

/-! ### TEST -/

theorem testEffect_of_neg {s : State} {x : Int} (a : Nat) (hacc : s.acc = some x) (hx : x < 0) :
    testEffect a s = .ok { st := s, target := some a } := by
  simp [testEffect_of_some hacc, isNegative, hx]

theorem testEffect_of_nonneg {s : State} {x : Int} (a : Nat) (hacc : s.acc = some x) (hx : 0 ≤ x) :
    testEffect a s = .ok { st := s } := by
  simp [testEffect_of_some hacc, isNegative, hx]

/-- A taken TEST writes only ir and pc (R99). -/
theorem exec_test_of_neg {s : State} {a : Nat} {x : Int} (ha : a ≤ 99) (hacc : s.acc = some x) (hx : x < 0) :
    exec (.test a) s = .next (s.retire (.opcode 3) a) :=
  (exec_of_effect_ok (i := .test a) (testEffect_of_neg a hacc hx)).trans (congrArg _ (completeStep_of_target _ s ha))

/-- Settles O12: a negative accumulator sets the branch target, any other sets none. -/
theorem testBranchesIfNegative : Obligations.TestBranchesIfNegative := by
  intro s a x hs ha hacc
  obtain hneg | hnonneg := lt_or_ge x 0
  · exact ⟨_, exec_test_of_neg ha hacc hneg, fun _ => ⟨rfl, hs.1, rfl⟩, fun h => absurd hneg h.not_gt, rfl,
      ⟨rfl, rfl, rfl⟩, rfl, rfl, rfl, rfl⟩
  · have heffect : effectOf (.test a) s = .ok { st := s } := testEffect_of_nonneg a hacc hnonneg
    have hc := effectOf_eq_ok heffect
    exact ⟨_, exec_of_effect_ok heffect, fun h => absurd hnonneg h.not_ge, fun _ => hc.fallsThrough hs _,
      completeStep_ir _ _, hc.keepsTheRest _, by simp, by simp, by simp, by simp⟩

/-! ### JUMP -/

theorem exec_jump {s : State} {a : Nat} (hs : Ready s) (ha : a ≤ 99) : exec (.jump a) s = .next (s.afterJump a) :=
  (exec_of_effect_ok (i := .jump a) (jumpEffect_of_pc_le hs.2)).trans (congrArg _ (completeStep_of_target _ _ ha))

/-- The return word is the word of a JUMP to the cell after the call (R100, C1). -/
theorem returnWord_eq (c : Nat) : returnWord c = 800 + ((c + 1 : Nat) : Int) := by
  rw [returnWord]
  omega

theorem decode_returnWord {c : Nat} (h : c ≤ 98) : decode (returnWord c) = .ok (.jump (c + 1)) :=
  decode_word (op := 8) (by decide) (by omega) (returnWord_eq c)

/-- The return word of cell 99 is 900, a HALT (R100). -/
theorem decode_returnWord_last : decode (returnWord 99) = .ok (.halt 0) :=
  decode_word (op := 9) (by decide) (by decide) rfl

/-- Settles O13: the state after the JUMP is `afterJump`, whose cell 99 holds the return word. -/
theorem jumpSavesTheReturnWordAndBranches : Obligations.JumpSavesTheReturnWordAndBranches := by
  intro s a hs hwf ha
  have hread := State.afterJump_read_same hwf a
  refine ⟨_, exec_jump hs ha, hread, fun b => s.afterJump_read_other a, ⟨rfl, hs.1, rfl⟩, rfl, ⟨rfl, rfl, rfl⟩, rfl,
    rfl, rfl, fun hpc => ?_, fun hpc => ?_⟩
  · rw [hread, decode_returnWord hpc]
  · rw [hread, hpc, decode_returnWord_last]

/-! ### Through the return word in cell 99 -/

theorem State.afterJump_wf {s : State} (hs : Ready s) (hwf : s.mem.wf) (a : Nat) : (s.afterJump a).mem.wf :=
  Memory.write_wf hwf (by decide) (returnWord_inCell hs.2)

/-- Settles O45: the JUMP at cell 99 is the return word just saved, which leads to c + 1 and saves 900 in its place. -/
theorem jumpThroughCell99DoesNotReturn : Obligations.JumpThroughCell99DoesNotReturn := by
  intro s hs hwf hpc hw
  have hfirst : step s = .next (s.afterJump 99) := step_of_jump hs le_rfl hw
  have hread := State.afterJump_read_same hwf 99
  have hsecond : step (s.afterJump 99) = .next ((s.afterJump 99).afterJump (s.pc + 1)) :=
    step_of_jump ⟨hs.1, le_rfl⟩ (by omega) (hread.trans (returnWord_eq s.pc))
  exact ⟨_, _, hfirst, rfl, hread, hsecond, rfl, State.afterJump_read_same (State.afterJump_wf hs hwf 99) _, hs.1⟩

/-- The step of a taken TEST (R99). -/
theorem step_of_test_neg {s : State} {a : Nat} {x : Int} (hs : Ready s) (ha : a ≤ 99)
    (hw : s.mem.read s.pc = 300 + (a : Int)) (hacc : s.acc = some x) (hx : x < 0) :
    step s = .next (s.retire (.opcode 3) a) :=
  (step_of_word (op := 3) hs (by decide) ha hw).trans (exec_test_of_neg ha hacc hx)

/-- Settles O46: the taken TEST writes no cell, so the return word is still in cell 99 and is executed as a JUMP. -/
theorem takenTestOf99Returns : Obligations.TakenTestOf99Returns := by
  intro s x d hs hacc hx hw hd hreturn
  have hfirst : step s = .next (s.retire (.opcode 3) 99) := step_of_test_neg hs le_rfl hw hacc hx
  have hsecond := step_of_jump (s := s.retire (.opcode 3) 99) ⟨hs.1, le_rfl⟩ hd hreturn
  exact ⟨_, _, hfirst, rfl, rfl, hsecond, rfl, hs.1, hacc⟩

/-! ### HALT and the unrecognised word -/

/-- Settles O14: the effect requests the halt whatever its address field, and the step completes with the universal
increment. -/
theorem haltStopsTheEngine : Obligations.HaltStopsTheEngine := fun _ a _ => exec_of_effect_ok (i := .halt a) rfl

/-- Settles O15: the step of the unrecognised word needs nothing of the state it starts from. -/
theorem unrecognisedWordHalts : Obligations.UnrecognisedWordHalts := fun s w _ => exec_unrecognised w s

end Sys2Proof.Machine
end

section
/-! PROOFS. Taking a fault: which steps do, that its information stays computable, and which instruction raises which
fault (spec/60_exceptions.md R106, R110, R111). -/

namespace Sys2Proof.Machine
open Sys2Proof.Slice0

/-! ### A step that ends in FAULTED -/

/-- The raise at pc is the fetch's or that of the decoded instruction's effect. -/
theorem faultInfo_eq_some_iff {s : State} {r : Raise} :
    faultInfo s = some r ↔
      fetch s = .error r ∨ ∃ w i, fetch s = .ok w ∧ decode w = .ok i ∧ effectOf i s = .error r := by
  cases hf : fetch s with
  | error f => simp [faultInfo, hf]
  | ok w =>
    cases hd : decode w with
    | error f => simp [faultInfo, hf, hd]
    | ok i => cases he : effectOf i s <;> simp [faultInfo, hf, hd, he]

/-- An instruction that takes the engine from RUNNING to FAULTED took the fault its effect raised. -/
theorem exec_eq_next_of_faulted {i : Instr} {s t : State} (h : exec i s = .next t) (hs : s.runState = .running)
    (ht : t.runState = .faulted) : ∃ r, effectOf i s = .error r ∧ t = takeFault s r := by
  obtain ⟨e, he, rfl⟩ | hfault := exec_eq_next h
  · have hrun : e.st.runState = .running := (effectOf_eq_ok he).runState_eq.trans hs
    obtain hk | hk := completeStep_runState_cases (irAfter i) e
    · simp [hk] at ht
    · simp [hk, hrun] at ht
  · exact hfault

/-- Settles O27: a raise of the fetch or of the effect takes the fault, and nothing else ends a step in FAULTED. -/
theorem faultsArePreciseAndTerminal : Obligations.FaultsArePreciseAndTerminal := by
  refine ⟨fun s r hrun hinfo => ⟨?_, step_of_faulted rfl⟩, fun s t h ht => ?_⟩
  · obtain hf | ⟨w, i, hf, hd, he⟩ := faultInfo_eq_some_iff.1 hinfo
    · exact step_of_fetch_error hrun hf
    · exact (step_of_decode hrun hf hd).trans (exec_of_effect_error he)
  · obtain ⟨hrun, ⟨r, hf, rfl⟩ | ⟨w, i, hf, hd, hexec⟩⟩ := step_eq_next h
    · exact ⟨r, faultInfo_eq_some_iff.2 (.inl hf), rfl⟩
    · obtain ⟨r, he, rfl⟩ := exec_eq_next_of_faulted hexec hrun ht
      exact ⟨r, faultInfo_eq_some_iff.2 (.inr ⟨w, i, hf, hd, he⟩), rfl⟩

/-! ### The information of a fault -/

theorem actsBeside_enterFaulted (f : FaultCode) : ActsBeside (State.enterFaulted · f) := by
  constructor <;> intros <;> rfl

theorem keepsAcc_enterFaulted (f : FaultCode) : KeepsAcc (State.enterFaulted · f) where
  acc _ := rfl
  setAcc _ _ := rfl

/-- What a fault changes is not read when its information is recomputed (R106). -/
theorem faultInfo_enterFaulted {s : State} {r : Raise} (f : FaultCode) (h : faultInfo s = some r) :
    faultInfo (s.enterFaulted f) = some r := by
  have hfetch : fetch (s.enterFaulted f) = fetch s := (actsBeside_enterFaulted f).memRead_eq s s.pc
  rw [faultInfo_eq_some_iff] at h ⊢
  rw [hfetch]
  refine h.imp_right fun ⟨w, i, hf, hd, he⟩ => ⟨w, i, hf, hd, ?_⟩
  rw [(actsBeside_enterFaulted f).effectOf_eq s i fun _ => keepsAcc_enterFaulted f, he]
  rfl

/-- Settles O28: the next state is the faulted one of O27, and recomputing reads nothing that the fault changed. -/
theorem faultInformationCanBeRecomputed : Obligations.FaultInformationCanBeRecomputed := by
  intro s t r h hinfo
  have hstep := (faultsArePreciseAndTerminal.1 s r (step_eq_next h).1 hinfo).1
  obtain rfl : t = faulted s r.code := Host.Outcome.next.inj (h.symm.trans hstep)
  exact ⟨rfl, r.code_ne_none, faultInfo_enterFaulted r.code hinfo⟩

/-! ### Which instruction raises which fault -/

/-- Settles O29: the raised code is one that R106 lists for the instruction. -/
theorem faultsAreRaisedOnlyByTheirInstructions : Obligations.FaultsAreRaisedOnlyByTheirInstructions := by
  intro i s t hi hs h ht
  obtain ⟨r, he, rfl⟩ := exec_eq_next_of_faulted h hs.1 ht
  have hcode : (takeFault s r).faultCode ∈ raiseCodes i := effectOf_raisesIn hi hs.2 r he
  cases i with
  | output | load | jump | halt | unrecognised => simp at hcode
  | shift a => simp [readsAcc] at hcode ⊢; tauto
  | _ => simpa [readsAcc] using hcode

end Sys2Proof.Machine
end

section
/-! PROOFS. ACC_UNWRITTEN: raised by the readers of an accumulator that is NONE, and by nothing else
(spec/60_exceptions.md R107, spec/10_state.md R23). -/

namespace Sys2Proof.Machine
open Sys2Proof.Slice0

/-! ### The readers raise it -/

section
variable {s : State} (h : s.acc = none) (a : Nat)
include h

theorem addEffect_of_acc_none : addEffect a s = .error (.accUnwritten s.pc) := by
  rw [addEffect, accRead_of_none h]; rfl

theorem subEffect_of_acc_none : subEffect a s = .error (.accUnwritten s.pc) := by
  rw [subEffect, accRead_of_none h]; rfl

theorem storeEffect_of_acc_none : storeEffect a s = .error (.accUnwritten s.pc) := by
  rw [storeEffect, accRead_of_none h]; rfl

theorem testEffect_of_acc_none : testEffect a s = .error (.accUnwritten s.pc) := by
  rw [testEffect, accRead_of_none h]; rfl

/-- SHIFT reads the accumulator only after its code (R96). -/
theorem shiftEffect_of_acc_none {code : Int} (hcode : shiftCode s a = .ok code) :
    shiftEffect a s = .error (.accUnwritten s.pc) := by
  rw [shiftEffect, hcode, accRead_of_none h]; rfl

end

theorem shiftCode_of_legal {s : State} {a : Nat} (ha : a ≤ 99) (h : 0 ≤ s.mem.read a ∧ s.mem.read a ≤ 99) :
    shiftCode s a = .ok (s.mem.read a) := by
  simp only [shiftCode, memRead_of_le ha, if_pos h]

/-! ### Nothing else raises it -/

/-- Every fault but ACC_UNWRITTEN. -/
def otherFaults : List FaultCode :=
  [.deckExhausted, .accOverflow, .cellRange, .negativeWord, .shiftCodeRange, .shiftRounding, .addressRange]

section
variable {codes : List FaultCode} (hc : .addressRange ∈ codes)
include hc

theorem memRead_raisesIn_any_address (s : State) (a : Nat) : RaisesIn codes (memRead s a) := by
  by_cases ha : a ≤ 99
  · exact memRead_raisesIn ha
  · rw [memRead_of_gt (Nat.lt_of_not_le ha)]; exact raisesIn_error hc

theorem memWrite_raisesIn_any_address (hv : .cellRange ∈ codes) (s : State) (a : Nat) (v : Int) :
    RaisesIn codes (memWrite s a v) := by
  by_cases ha : a ≤ 99
  · exact memWrite_raisesIn hv ha
  · rw [memWrite_of_gt (Nat.lt_of_not_le ha)]; exact raisesIn_error hc

theorem shiftCode_raisesIn_any_address (hs : .shiftCodeRange ∈ codes) (s : State) (a : Nat) :
    RaisesIn codes (shiftCode s a) := by
  by_cases ha : a ≤ 99
  · exact shiftCode_raisesIn hs ha
  · rw [shiftCode, memRead_of_gt (Nat.lt_of_not_le ha)]; exact raisesIn_error hc

end

/-- An instruction that does not read the accumulator, or finds a value in it, raises other faults only, from every
state and with every operand. -/
theorem effectOf_raisesIn_otherFaults {i : Instr} {s : State} (h : readsAcc i = true → s.acc ≠ none) :
    RaisesIn otherFaults (effectOf i s) := by
  have hread (a : Nat) : RaisesIn otherFaults (memRead s a) := memRead_raisesIn_any_address (by decide) s a
  have hwrite (s' : State) (a : Nat) (v : Int) : RaisesIn otherFaults (memWrite s' a v) :=
    memWrite_raisesIn_any_address (by decide) (by decide) s' a v
  have hcheck (v : Int) : RaisesIn otherFaults (checkAcc s.cfg v) := checkAcc_raisesIn (by decide) s.cfg v
  have hacc (hr : readsAcc i = true) : RaisesIn otherFaults (accRead s) := by
    obtain ⟨x, hx⟩ := Option.ne_none_iff_exists'.1 (h hr)
    rw [accRead_of_some hx]; exact raisesIn_ok x
  cases i with
  | input a =>
    exact (deckRead_raisesIn (by decide) s).bind fun _ => (hwrite _ a _).bind fun _ => raisesIn_ok _
  | output a | load a => exact (hread a).bind fun _ => raisesIn_ok _
  | add a | sub a =>
    exact (hacc rfl).bind fun _ => (hread a).bind fun _ => (hcheck _).bind fun _ => raisesIn_ok _
  | shift a =>
    exact (shiftCode_raisesIn_any_address (by decide) (by decide) s a).bind fun _ => (hacc rfl).bind fun _ =>
      (shiftValue_raisesIn (by decide) (by decide) s.cfg _ _).bind fun _ => raisesIn_ok _
  | store a => exact (hacc rfl).bind fun _ => (hwrite s a _).bind fun _ => raisesIn_ok _
  | test a => exact (hacc rfl).bind fun _ => raisesIn_ok _
  | jump a => exact (hwrite s 99 _).bind fun _ => raisesIn_ok _
  | halt | unrecognised => exact raisesIn_ok _
  | refusedNegative w =>
    rw [effectOf, refusedNegativeEffect]
    cases s.cfg.decodeNeg with
    | fault => exact raisesIn_error (by simp [otherFaults, Raise.code])
    | halt => exact raisesIn_ok _

/-- The fault code becomes ACC_UNWRITTEN only by a read of an accumulator that is NONE (R107). -/
theorem exec_accUnwritten {i : Instr} {s t : State} (h : exec i s = .next t) (hs : s.faultCode ≠ .accUnwritten)
    (ht : t.faultCode = .accUnwritten) : s.acc = none ∧ readsAcc i = true := by
  obtain ⟨e, he, rfl⟩ | ⟨r, hr, rfl⟩ := exec_eq_next h
  · rw [completeStep_faultCode, (effectOf_eq_ok he).faultCode_eq] at ht
    exact absurd ht hs
  · by_contra hno
    have hmem : r.code ∈ otherFaults := effectOf_raisesIn_otherFaults (fun hi hacc => hno ⟨hacc, hi⟩) r hr
    have hcode : r.code = .accUnwritten := ht
    rw [hcode] at hmem
    exact absurd hmem (by decide)

/-- No instruction makes a written accumulator NONE. -/
theorem exec_acc_ne_none {i : Instr} {s t : State} (h : exec i s = .next t) (hs : s.acc ≠ none) : t.acc ≠ none := by
  obtain ⟨e, he, rfl⟩ | ⟨r, rfl⟩ := exec_completes_or_faults h
  · rw [completeStep_acc]
    cases he with
    | load | add | sub | shift => exact Option.some_ne_none _
    | _ => exact hs
  · exact hs

/-- A written accumulator and a fault code other than ACC_UNWRITTEN. -/
def AccWritten (s : State) : Prop := s.acc ≠ none ∧ s.faultCode ≠ .accUnwritten

theorem AccWritten.step {s t : State} (hs : AccWritten s) (h : step s = .next t) : AccWritten t := by
  obtain ⟨hacc, hcode⟩ := hs
  obtain ⟨-, ⟨r, hf, rfl⟩ | ⟨w, i, -, -, hexec⟩⟩ := step_eq_next h
  · have hr : r.code ∈ [FaultCode.addressRange] := memRead_raisesIn_any_address (by decide) s s.pc r hf
    exact ⟨hacc, ne_of_mem_of_not_mem hr (by decide)⟩
  · exact ⟨exec_acc_ne_none hexec hacc, fun ht => hacc (exec_accUnwritten hexec hcode ht).1⟩

theorem AccWritten.steps {s t : State} (hs : AccWritten s) (h : Steps s t) : AccWritten t := by
  induction h with
  | refl => exact hs
  | tail t u _ hstep ih => exact ih.step hstep

/-- Settles O17: the readers' effects on NONE, the faults of every other effect, and the invariant `AccWritten`. -/
theorem readingAnUnwrittenAccumulatorFaults : Obligations.ReadingAnUnwrittenAccumulatorFaults := by
  refine ⟨fun s a _ ha h => ⟨?_, ?_, ?_, ?_, fun hlow hhigh => ?_⟩, fun i s t => exec_accUnwritten,
    fun i s t => exec_acc_ne_none, fun s t hrun hacc hcode => (AccWritten.steps ⟨hacc, hcode⟩ hrun).2⟩
  · exact exec_of_effect_error (i := .add a) (addEffect_of_acc_none h a)
  · exact exec_of_effect_error (i := .sub a) (subEffect_of_acc_none h a)
  · exact exec_of_effect_error (i := .store a) (storeEffect_of_acc_none h a)
  · exact exec_of_effect_error (i := .test a) (testEffect_of_acc_none h a)
  · exact exec_of_effect_error (i := .shift a) (shiftEffect_of_acc_none h a (shiftCode_of_legal ha ⟨hlow, hhigh⟩))

end Sys2Proof.Machine
end

section
/-! PROOFS. The faulting defaults are conservative: what completes under them does the same under every other resolution
of the spec's open choices (spec/60_exceptions.md R108, spec/00_scope.md R9, R14). -/

namespace Sys2Proof.Machine
open Sys2Proof.Slice0

/-! ### Values computed under other parameters -/

/-- Where `x` gives a value, `x'` gives the same value. -/
def AgreesIfOk {α : Type} (x x' : Except Raise α) : Prop := ∀ v, x = .ok v → x' = .ok v

theorem AgreesIfOk.bind {α β : Type} {x x' : Except Raise α} {f f' : α → Except Raise β} (hx : AgreesIfOk x x')
    (hf : ∀ v, AgreesIfOk (f v) (f' v)) : AgreesIfOk (x >>= f) (x' >>= f') := by
  cases x with
  | error r => exact fun _ h => by cases h
  | ok v => rw [hx v rfl]; exact hf v

section
variable {c d : Config}

theorem timesTen_succ (c : Config) (n : Nat) (x : Int) :
    timesTen c (n + 1) x = checkAcc c (x * 10) >>= timesTen c n := by
  rw [timesTen]; cases checkAcc c (x * 10) <;> rfl

theorem divTens_succ (c : Config) (n : Nat) (x : Int) : divTens c (n + 1) x = divTen c x >>= divTens c n := by
  rw [divTens]; cases divTen c x <;> rfl

theorem shiftValue_eq_bind (c : Config) (code x : Int) :
    shiftValue c code x = timesTen c (shiftLeftCount code) x >>= divTens c (shiftRightCount code) := by
  rw [shiftValue]; cases timesTen c (shiftLeftCount code) x <;> rfl

/-- A wider accumulator accepts what a narrower one does (R9, D3). -/
theorem checkAcc_agrees (h : c.accBits ≤ d.accBits) (v : Int) : AgreesIfOk (checkAcc c v) (checkAcc d v) := by
  intro r hr
  obtain ⟨hin, rfl⟩ := checkAcc_eq_ok_iff.1 hr
  exact checkAcc_of_inAcc (inAcc_of_accBits_le h hin)

theorem timesTen_agrees (h : c.accBits ≤ d.accBits) (n : Nat) (x : Int) :
    AgreesIfOk (timesTen c n x) (timesTen d n x) := by
  induction n generalizing x with
  | zero => exact fun _ => id
  | succ n ih =>
    rw [timesTen_succ, timesTen_succ]
    exact (checkAcc_agrees h _).bind ih

/-- A division that mode UNDECIDED accepts is exact or of a value >= 0, and is the same in every mode (R96, D10). -/
theorem divTen_agrees (h : c.shiftDiv = .undecided ∨ d.shiftDiv = c.shiftDiv) (x : Int) :
    AgreesIfOk (divTen c x) (divTen d x) := by
  by_cases hx : x < 0 ∧ x % 10 ≠ 0
  · obtain hundecided | hsame := h
    · intro y hy
      simp only [divTen, if_pos hx, hundecided, reduceCtorEq] at hy
    · rw [divTen, divTen, hsame]
      exact fun _ => id
  · rw [divTen, divTen, if_neg hx, if_neg hx]
    exact fun _ => id

theorem divTens_agrees (h : c.shiftDiv = .undecided ∨ d.shiftDiv = c.shiftDiv) (n : Nat) (x : Int) :
    AgreesIfOk (divTens c n x) (divTens d n x) := by
  induction n generalizing x with
  | zero => exact fun _ => id
  | succ n ih =>
    rw [divTens_succ, divTens_succ]
    exact (divTen_agrees h x).bind ih

theorem shiftValue_agrees (hbits : c.accBits ≤ d.accBits)
    (hdiv : c.shiftDiv = .undecided ∨ d.shiftDiv = c.shiftDiv) (code x : Int) :
    AgreesIfOk (shiftValue c code x) (shiftValue d code x) := by
  rw [shiftValue_eq_bind, shiftValue_eq_bind]
  exact (timesTen_agrees hbits _ x).bind (divTens_agrees hdiv _)

end

/-! ### Effects and steps under other choices -/

/-- The state with other parameters and another accumulator: the open choices resolved another way. -/
def State.withChoices (d : Config) (y : Option Int) (s : State) : State := { s with cfg := d, acc := y }

/-- Two states agree up to choices exactly if one is the other with its choices resolved. -/
theorem agreesUpToChoices_iff {s s' : State} :
    AgreesUpToChoices s s' ↔
      ∃ d y, s' = s.withChoices d y ∧ ResolvesMore s.cfg d ∧ (s.acc = none ∨ y = s.acc) := by
  constructor
  · rintro ⟨hcfg, hacc, heq⟩
    exact ⟨s'.cfg, s'.acc, by rw [← heq]; rfl, hcfg, hacc⟩
  · rintro ⟨d, y, rfl, hcfg, hacc⟩
    exact ⟨hcfg, hacc, rfl⟩

theorem completeStep_withChoices (op : Ir) (e : Effected) (d : Config) (y : Option Int) :
    completeStep op (e.mapState (State.withChoices d y)) = (completeStep op e).withChoices d y := by
  have hpc : nextPc (e.mapState (State.withChoices d y)) = nextPc e := nextPc_mapState e rfl
  apply State.eq_of_fields <;> simp [State.withChoices, completeStep_runState, completeStep_haltCause, hpc]

/-- An effect that raises nothing is the same under every other resolution of the choices, but for the parameters and
for an accumulator that is NONE on the left. -/
theorem effectOf_withChoices {i : Instr} {s : State} {e : Effected} {d : Config} {y : Option Int}
    (hcfg : ResolvesMore s.cfg d) (hacc : s.acc = none ∨ y = s.acc) (h : effectOf i s = .ok e) :
    ∃ z, effectOf i (s.withChoices d y) = .ok (e.mapState (State.withChoices d z)) ∧
      (e.st.acc = none ∨ z = e.st.acc) := by
  obtain ⟨hbits, hdeck, hneg, hdiv⟩ := hcfg
  have hread {x : Int} (hx : s.acc = some x) : (s.withChoices d y).acc = some x :=
    (hacc.resolve_left (by simp [hx])).trans hx
  cases i with
  | input a =>
    obtain ⟨v, hv | ⟨hend, hzero, rfl⟩, ha, hcell, rfl⟩ := inputEffect_eq_ok h
    · exact ⟨y, inputEffect_of_some (s := s.withChoices d y) hv ha hcell, hacc⟩
    · have hmode : d.deckExhausted = .zero := (hdeck.resolve_left (by simp [hzero])).trans hzero
      exact ⟨y, inputEffect_of_zero (s := s.withChoices d y) hend hmode ha, hacc⟩
  | output a =>
    obtain ⟨ha, rfl⟩ := outputEffect_eq_ok h
    exact ⟨y, outputEffect_of_le ha, hacc⟩
  | load a =>
    obtain ⟨ha, rfl⟩ := loadEffect_eq_ok h
    exact ⟨some (s.mem.read a), loadEffect_of_le ha, .inr rfl⟩
  | add a =>
    obtain ⟨x, hx, ha, hr, rfl⟩ := addEffect_eq_ok h
    exact ⟨_, addEffect_of_inAcc (hread hx) ha (inAcc_of_accBits_le hbits hr), .inr rfl⟩
  | sub a =>
    obtain ⟨x, hx, ha, hr, rfl⟩ := subEffect_eq_ok h
    exact ⟨_, subEffect_of_inAcc (hread hx) ha (inAcc_of_accBits_le hbits hr), .inr rfl⟩
  | shift a =>
    obtain ⟨x, r, hx, hcode, hvalue, rfl⟩ := shiftEffect_eq_ok h
    exact ⟨some r, shiftEffect_of_value (s := s.withChoices d y) hcode (hread hx)
      (shiftValue_agrees hbits hdiv _ x r hvalue), .inr rfl⟩
  | store a =>
    obtain ⟨x, hx, ha, hcell, rfl⟩ := storeEffect_eq_ok h
    exact ⟨y, storeEffect_of_inCell (hread hx) ha hcell, hacc⟩
  | test a =>
    obtain ⟨x, hx, rfl⟩ := testEffect_eq_ok h
    exact ⟨y, testEffect_of_some (hread hx), hacc⟩
  | jump a =>
    obtain ⟨hcell, rfl⟩ := jumpEffect_eq_ok h
    exact ⟨y, jumpEffect_of_inCell (s := s.withChoices d y) hcell, hacc⟩
  | halt a =>
    obtain rfl := haltEffect_eq_ok (a := a) h
    exact ⟨y, rfl, hacc⟩
  | unrecognised w =>
    obtain rfl := unrecognisedEffect_eq_ok (w := w) h
    exact ⟨y, rfl, hacc⟩
  | refusedNegative w =>
    obtain ⟨hhalt, rfl⟩ := refusedNegativeEffect_eq_ok h
    have hmode : d.decodeNeg = .halt := (hneg.resolve_left (by simp [hhalt])).trans hhalt
    exact ⟨y, refusedNegativeEffect_of_halt (s := s.withChoices d y) hmode, hacc⟩

/-- The simulation step: an unfaulted step is matched by a step under every other resolution (R108). -/
theorem step_agreesUpToChoices {s s' t : State} (hs : AgreesUpToChoices s s') (h : step s = .next t)
    (ht : t.runState ≠ .faulted) : ∃ t', step s' = .next t' ∧ AgreesUpToChoices t t' := by
  obtain ⟨d, y, rfl, hcfg, hacc⟩ := agreesUpToChoices_iff.1 hs
  obtain ⟨hrun, ⟨r, -, rfl⟩ | ⟨w, i, hf, hd, hexec⟩⟩ := step_eq_next h
  · exact absurd rfl ht
  · obtain ⟨e, he, rfl⟩ | ⟨r, -, rfl⟩ := exec_eq_next hexec
    · obtain ⟨z, hz, hzacc⟩ := effectOf_withChoices hcfg hacc he
      refine ⟨(completeStep (irAfter i) e).withChoices d z, ?_, agreesUpToChoices_iff.2 ⟨d, z, rfl, ?_, ?_⟩⟩
      · rw [step_of_decode (s := s.withChoices d y) hrun hf hd, exec_of_effect_ok hz, completeStep_withChoices]
      · rwa [completeStep_cfg, (effectOf_eq_ok he).cfg_eq]
      · rwa [completeStep_acc]
    · exact absurd rfl ht

/-- Settles O43: the simulation step, lifted to runs by induction; a state that takes a step is not FAULTED. -/
theorem unfaultedStepsAgreeUnderEveryResolution : Obligations.UnfaultedStepsAgreeUnderEveryResolution := by
  refine ⟨fun s s' t => step_agreesUpToChoices, fun s s' t hs hrun ht => ?_⟩
  induction hrun with
  | refl => exact ⟨s', .refl s', hs⟩
  | tail t u _ hstep ih =>
    obtain ⟨t', hrun', htt'⟩ := ih (by simp [(step_eq_next hstep).1])
    obtain ⟨u', hstep', huu'⟩ := step_agreesUpToChoices htt' hstep ht
    exact ⟨u', .tail s' t' u' hrun' hstep', huu'⟩

end Sys2Proof.Machine
end

section
/-! PROOFS. What `start` makes of the host's inputs (spec/70_reset_and_hazards.md R123 to R128), and the observation
after the run (R131, R135). -/

namespace Sys2Proof.Machine
open Sys2Proof.Slice0

/-! ### The loaded image -/

/-- An image of 100 cell values is loaded in canonical form, the seed included (R126, R127). -/
theorem loadImage_wf {image : List Int} (hlen : image.length = 100) (hcells : ∀ v ∈ image, inCell v) :
    (loadImage image).wf :=
  Memory.write_wf (Memory.ofCells_wf hcells (by omega)) (by decide) (by decide)

/-- The seed is written over whatever the image holds at cell 0 (R127). -/
theorem read_loadImage_zero {image : List Int} (hlen : image.length = 100) (hcells : ∀ v ∈ image, inCell v) :
    (loadImage image).read 0 = 1 :=
  Memory.read_write_same (Memory.ofCells_wf hcells (by omega)) 0 1

/-- The seed leaves every other cell as the image has it (R126). -/
theorem read_loadImage_of_ne_zero {image : List Int} {a : Nat} (ha : a < image.length) (h0 : a ≠ 0) :
    (loadImage image).read a = image.getD a 0 :=
  calc (loadImage image).read a
    _ = (Memory.ofCells 0 image).read a := Memory.read_write_other 1 h0
    _ = image.getD a 0 := by rw [Memory.read_ofCells, if_pos (by omega), Nat.sub_zero]

/-! ### The state after `start` -/

/-- Settles O34: memory is the loaded image, cell by cell; the other fields are the values that `start` gives them. -/
theorem startSetsEveryPieceOfState : Obligations.StartSetsEveryPieceOfState := by
  rintro cfg image deck ⟨hlen, hcells, -, -⟩
  refine ⟨fun a ha => ?_, rfl, rfl, rfl, rfl, rfl, rfl, rfl, rfl, rfl, rfl⟩
  show (loadImage image).read a = _
  split
  next h0 => rw [h0, read_loadImage_zero hlen hcells]
  next h0 => exact read_loadImage_of_ne_zero (by omega) h0

/-- What the invariant needs of the host: legal parameters (R9, R22), a full image of cell values (R126) and a deck
within its capacity, whose values are not asked for (R128). -/
theorem start_inv {cfg : Config} {image deck : List Int} (hcfg : configOk cfg) (hlen : image.length = 100)
    (hcells : ∀ v ∈ image, inCell v) (hdeck : deck.length ≤ 100) : (start cfg image deck).Inv where
  cfg_ok := hcfg
  mem_wf := loadImage_wf hlen hcells
  acc_ok := hcfg.2
  pc_le := by simp [start]
  pc_lt _ := by simp [start]
  halt_iff := by simp [start]
  fault_iff := by simp [start]
  deck_len := hdeck
  cursor_le _ := Nat.zero_le _
  out_ok := by simp [start]

/-- Settles O33: the host's duties hold all that the invariant asks for. -/
theorem startMeetsTheInvariant : Obligations.StartMeetsTheInvariant := by
  rintro cfg image deck hcfg ⟨hlen, hcells, hdeck, -⟩
  exact start_inv hcfg hlen hcells hdeck

/-- Settles O32: reset is a start (O35) with legal parameters, whose image and deck keep the host's duties. -/
theorem resetMeetsTheInvariant : Obligations.ResetMeetsTheInvariant := by
  have hcfg : configOk {} := ⟨le_rfl, trivial⟩
  have hhost : hostDuty (List.replicate 100 0) [] := by decide
  rw [Obligations.ResetMeetsTheInvariant, resetIsTheStartOfTheEmptyRun]
  exact startMeetsTheInvariant _ _ _ hcfg hhost

/-! ### The observation after the run -/

theorem runningFlag_iff {s : State} : runningFlag s = true ↔ s.runState = .running := decide_eq_true_iff

/-- Settles O49: the run_state check of the observation goes by RUNNING alone. -/
theorem endStateIsReadableAfterTheRun : Obligations.EndStateIsReadableAfterTheRun := fun _ =>
  ⟨fun h => if_pos (runningFlag_iff.2 h), fun h => if_neg (mt runningFlag_iff.1 h)⟩

end Sys2Proof.Machine
end
